-- ==== Sys2Proof/Word.lean ====
section
/-! DEFINITION. The two word types of the core (R7): the memory cell and the address. -/
namespace Sys2Proof

/-- A memory cell, and the width of A, X and Y: 8 bits, unsigned (R7, R14). -/
abbrev Byte := BitVec 8

/-- An address, and the width of PC and SP: 16 bits (R7). Addition on it is modulo 65536 (R14). -/
abbrev Addr := BitVec 16

end Sys2Proof
end

