-- ==== Sys2Proof/Syntax.lean ====
section
/-! DEFINITION. The instructions of the core: one constructor per row of spec/opcode_table.json (R2, R62). -/
namespace Sys2Proof

/-- The instruction set (R2, R62): two loads and one behaviour for every other opcode value. -/
inductive Instr where
  /-- LDA Immediate, `LDA #imm8`, opcode 0xA9 (R58, R88). -/
  | ldaImm (imm8 : Byte)
  /-- LDA Zero Page, `LDA zp8`, opcode 0xA5 (R59, R89). -/
  | ldaZp (zp8 : Byte)
  /-- An unrecognized opcode, written `.byte op`; the constructor keeps the opcode byte, which the miss reports (R57, R90). -/
  | unrecognized (op : Byte)
  deriving DecidableEq, Repr

end Sys2Proof
end

