-- ==== Sys2Proof/WellFormed.lean ====
section
/-! DEFINITION. Which terms of Instr stand for an encoding: every operand byte is legal, and an unrecognized opcode is one of the 254 values that are not 0xA9 or 0xA5. -/
namespace Sys2Proof

/-- `imm8` and `zp8` take all 256 values (R60, R61); the unrecognized opcodes are the values other than 0xA9 and 0xA5 (R64, R91). -/
def Instr.wellFormed : Instr → Bool
  | .ldaImm _ => true
  | .ldaZp _ => true
  | .unrecognized op => op != 0xA9#8 && op != 0xA5#8

end Sys2Proof
end

