-- ==== Sys2Proof/Decode.lean ====
section
/-! DEFINITION. Decoding, total on any bytes and rejecting by name; then the encoder. Both are written from 30_encoding.md. -/
namespace Sys2Proof

/-- The three instruction formats (R57, R58, R59). -/
inductive Format where
  /-- `OP`: the opcode alone (R57). -/
  | op
  /-- `OP_IMM8`: the opcode and an immediate byte (R58). -/
  | opImm8
  /-- `OP_ZP8`: the opcode and a zero-page address byte (R59). -/
  | opZp8
  deriving DecidableEq, Repr

/-- The opcode of LDA Immediate (R58, R62). -/
def ldaImmOpcode : Byte := 0xA9#8

/-- The opcode of LDA Zero Page (R59, R62). -/
def ldaZpOpcode : Byte := 0xA5#8

/-- "Decoding compares the whole opcode byte with 0xA9 and with 0xA5" (R62). -/
def formatOf (op : Byte) : Format :=
  if op = ldaImmOpcode then .opImm8
  else if op = ldaZpOpcode then .opZp8
  else .op

/-- The length in bytes, a function of the opcode byte alone (R56). -/
def lengthOf (op : Byte) : Nat :=
  match formatOf op with
  | .op => 1
  | .opImm8 => 2
  | .opZp8 => 2

/-- `Cost(op)`: the cycles an instruction takes, one for each memory byte it reads (R69, R70, R115). -/
def costOf (op : Byte) : Nat :=
  match formatOf op with
  | .op => 1
  | .opImm8 => 2
  | .opZp8 => 3

/-- The instruction of an opcode byte and the byte after it; the second byte counts only for the two-byte formats (R63, R65). -/
def decodeBytes (op operand : Byte) : Instr :=
  match formatOf op with
  | .op => .unrecognized op
  | .opImm8 => .ldaImm operand
  | .opZp8 => .ldaZp operand

/-- Why a list of bytes holds no whole instruction. Memory never runs out (R47), so only a list given from outside is rejected (log 13). -/
inductive DecodeError where
  /-- There is no byte to take as the opcode. -/
  | noOpcode
  /-- The opcode `op` needs an operand byte and none follows. -/
  | noOperand (op : Byte)
  deriving DecidableEq, Repr

/-- What the decoder makes of a list of bytes. -/
inductive Decoded where
  /-- The instruction at the head of the list and the bytes after it. -/
  | instr (i : Instr) (rest : List Byte)
  /-- No instruction, and why. -/
  | rejected (e : DecodeError)
  deriving DecidableEq, Repr

/-- The decoder: the opcode tells the length before any other byte is looked at (R56). -/
def decode : List Byte → Decoded
  | [] => .rejected .noOpcode
  | op :: rest =>
    if lengthOf op = 1 then .instr (decodeBytes op 0x00#8) rest
    else
      match rest with
      | [] => .rejected (.noOperand op)
      | operand :: rest' => .instr (decodeBytes op operand) rest'

/-- The two bytes of a table word, in increasing address order, opcode first (R48). That bits 7..0 are the opcode byte and bits 15..8 the
byte after it is no rule of the spec, which fixes no byte order (R48, N10): it is the model's choice for this interface (DESIGN CHOICE,
log 16). So is that every bit at or above `nbits` is 0 (DESIGN CHOICE, log 13). -/
def tableBytes (nbits w : Nat) : Byte × Byte :=
  (BitVec.ofNat 8 (w % 2 ^ nbits), BitVec.ofNat 8 (w % 2 ^ nbits / 256))

/-- The instruction the decoder reads from a table word, laid out as bytes by `tableBytes` (log 13, log 16). -/
def decodeTableWord (nbits w : Nat) : Option Instr :=
  match decode [(tableBytes nbits w).1, (tableBytes nbits w).2] with
  | .instr i _ => some i
  | .rejected _ => none

/-- The opcode byte of an instruction (R57, R58, R59). -/
def Instr.opcode : Instr → Byte
  | .ldaImm _ => 0xA9#8
  | .ldaZp _ => 0xA5#8
  | .unrecognized op => op

/-- The encoder: the bytes of an instruction in increasing address order (R57, R58, R59). -/
def encode : Instr → List Byte
  | .ldaImm imm8 => [0xA9#8, imm8]
  | .ldaZp zp8 => [0xA5#8, zp8]
  | .unrecognized op => [op]

end Sys2Proof
end

