-- ==== Sys2Proof/Config.lean ====
section
/-! DEFINITION. The parameters of the core, each fixed by the spec (R7: "No parameter is left to the implementation"); there is no free value. -/
namespace Sys2Proof.Config

/-- `MEM_SIZE`: the memory has 65536 bytes and is never resized (R7, R40). -/
def memSize : Nat := 65536

/-- What every byte holds after construction and after reset (R38, R42, R45). -/
def clearByte : Byte := 0x00#8

/-- PC after reset: the entry point itself, no vector is read (R38, R108, 90_conflicts.md C3). -/
def resetPc : Addr := 0xFFFC#16

/-- SP after reset (R38, 90_conflicts.md C4). -/
def resetSp : Addr := 0x00FF#16

/-- The width of the cycle budget, a `u32` argument of `execute` (R7, R102). -/
abbrev budgetBits : Nat := 32

end Sys2Proof.Config
end

