-- ==== Sys2Proof/Machine/State.lean ====
section
/-! DEFINITION. All the state the spec gives the machine, as plain data, and its value after construction and after reset. -/
namespace Sys2Proof.Machine

/-- The register file: A, X, Y, PC, SP and the seven independent one-bit flags (R19 to R29). -/
structure Cpu where
  /-- A, the accumulator (R20). -/
  a : Byte
  /-- X, an index register no instruction uses (R21). -/
  x : Byte
  /-- Y, an index register no instruction uses (R22). -/
  y : Byte
  /-- PC, the address of the next byte to fetch (R24). -/
  pc : Addr
  /-- SP, a 16-bit value with no address meaning (R26). -/
  sp : Addr
  /-- C, Carry (R29). -/
  c : Bool
  /-- Z, Zero (R28). -/
  z : Bool
  /-- I, InterruptDisable; it masks nothing (R29, R96). -/
  i : Bool
  /-- D, Decimal; it selects nothing (R29). -/
  d : Bool
  /-- B, Break; it records nothing (R29). -/
  b : Bool
  /-- O, Overflow (R29). -/
  o : Bool
  /-- N, Negative (R28). -/
  n : Bool
  deriving DecidableEq, Repr

/-- The memory (R40): the bytes that differ from `Config.clearByte`, at strictly rising addresses below 65536. An address that is not
listed holds `Config.clearByte`, as construction and reset leave it (R42, R45). `Memory.wf` (Machine/Ops.lean) says the form holds. -/
abbrev Memory := List Host.Cell

/-- How a call of `execute` ended (R80). -/
inductive Status where
  /-- The budget reached 0 at an instruction boundary (R72). -/
  | budgetExhausted
  /-- The instruction `op` at `addr` costs more than the budget left and was not begun (R73). -/
  | insufficientBudget (op : Byte) (addr : Addr)
  /-- The opcode `op`, fetched from `addr`, is unrecognized (R90). -/
  | unknownOpcode (op : Byte) (addr : Addr)
  deriving DecidableEq, Repr

/-- Where the machine stands with respect to a call of `execute` (R33, R34, R71, R80; DESIGN CHOICE, log 4). -/
inductive Call where
  /-- Between calls, with no result at the status port: the budget and the loop state "do not exist outside a call" (R38). -/
  | idle
  /-- Inside a call: the loop state is RUNNING and `b` cycles of the budget are left (R33, R34). -/
  | running (b : Nat)
  /-- Between calls: the last call HALTED and returned `status` with `remaining` cycles (R34, R80). -/
  | returned (status : Status) (remaining : Nat)
  deriving DecidableEq, Repr

/-- What the optional trace port receives (R101). -/
inductive TraceEvent where
  /-- After each completed LDA: a copy of the registers and flags. -/
  | executed (cpu : Cpu)
  /-- At a dispatch miss: the opcode and its address. -/
  | miss (op : Byte) (addr : Addr)
  deriving DecidableEq, Repr

/-- The commands of the control port, "and no others" (R10). -/
inductive HostCommand where
  /-- `Memory::new()` (R42). -/
  | memoryNew
  /-- `CPU::new()` (R37, R105). -/
  | cpuNew
  /-- `memory.reset()` (R45). -/
  | memoryReset
  /-- `cpu.reset(&mut memory)` (R106). -/
  | cpuReset
  /-- A host write of one byte (R10, R16, R55). -/
  | write (addr : Addr) (v : Byte)
  /-- `cpu.execute(cycle_budget, &memory)`; the budget is a `u32` (R71, R102). -/
  | execute (budget : BitVec Config.budgetBits)
  deriving DecidableEq, Repr

/-- The machine: the register file, the memory, the spec's own model flag, the call in progress, the host's pending commands and
the trace port. -/
structure State where
  /-- The registers and flags (R19). -/
  cpu : Cpu
  /-- The memory (R40). -/
  mem : Memory
  /-- `reset_done`: false after `CPU::new()`, true after the first reset (R35). -/
  resetDone : Bool
  /-- The call of `execute`: none, in progress with its budget, or returned with its result (R33, R34, R80). -/
  call : Call
  /-- The control port: the commands the host is still to give, the next one first (R10; DESIGN CHOICE, log 2). -/
  host : List HostCommand
  /-- The trace port: absent, or the events received, the oldest first (R101; DESIGN CHOICE, log 7). -/
  trace : Option (List TraceEvent)
  deriving DecidableEq, Repr

/-- Reasons the machine stops with a fault: none. "There are no exceptions and no traps" (R93), and every abnormal event ends the call
with a status (R94), which is a next state here (log 5). Nothing raises a fault; that is safe. -/
inductive Fault where
  deriving DecidableEq, Repr

/-- Reasons a step has no meaning. -/
inductive Refusal where
  /-- Raised by an arm of `exec` whose instruction has no meaning yet; safe. No arm raises it in this model. -/
  | notModelled (mnemonic : String)
  /-- Raised by the host command `execute` before the first `cpu.reset`: "refuse NotReset" (R82, log 6); safe, nothing can be proved
  about such a call. -/
  | notReset
  deriving DecidableEq, Repr

/-- What a step or a meaning answers. -/
abbrev Result := Host.Outcome State Fault Refusal

/-- The register file after `CPU::new()` (R37). -/
def Cpu.new : Cpu :=
  { a := 0x00#8, x := 0x00#8, y := 0x00#8, pc := 0x0000#16, sp := 0x0000#16
    c := false, z := false, i := false, d := false, b := false, o := false, n := false }

/-- The register file after `cpu.reset` (R38, R106). -/
def Cpu.afterReset : Cpu :=
  { a := 0x00#8, x := 0x00#8, y := 0x00#8, pc := Config.resetPc, sp := Config.resetSp
    c := false, z := false, i := false, d := false, b := false, o := false, n := false }

/-- The machine after `Memory::new()` and `CPU::new()`, with no command pending (R37, R42, R105). -/
def State.new : State :=
  { cpu := Cpu.new, mem := [], resetDone := false, call := .idle, host := [], trace := some [] }

/-- The machine right after `cpu.reset(&mut memory)` (R38): no call exists, no command is pending, the trace hook has received nothing. -/
def State.reset : State :=
  { cpu := Cpu.afterReset, mem := [], resetDone := true, call := .idle, host := [], trace := some [] }

end Sys2Proof.Machine
end

