-- ==== Sys2Proof/Machine/Ops.lean ====
section
/-! DEFINITION. The named operations over memory, registers, the call and the trace port that every meaning is written in. -/
namespace Sys2Proof.Machine

/-! ## Memory -/

/-- The byte at a key of the cell list; an unlisted key reads as the cleared byte (R42, R45). -/
def Memory.readAt : Memory → Nat → Byte
  | [], _ => Config.clearByte
  | (k, v) :: m, a => if k = a then v else Memory.readAt m a

/-- Puts `v` at key `a` in a rising cell list; the cleared byte is not listed. -/
def Memory.writeAt : Memory → Nat → Byte → Memory
  | [], a, v => if v = Config.clearByte then [] else [(a, v)]
  | (k, w) :: m, a, v =>
    if a < k then (if v = Config.clearByte then (k, w) :: m else (a, v) :: (k, w) :: m)
    else if a = k then (if v = Config.clearByte then m else (a, v) :: m)
    else (k, w) :: Memory.writeAt m a v

/-- `MemRead(addr, 1)`: the byte at `addr`; it changes nothing and every address is in range (R16, R43, R46). -/
def Memory.read (m : Memory) (addr : Addr) : Byte := Memory.readAt m addr.toNat

/-- `MemWrite(addr, 1, v)`: sets the one byte at `addr` (R16, R46). -/
def Memory.write (m : Memory) (addr : Addr) (v : Byte) : Memory := Memory.writeAt m addr.toNat v

/-- The zero-filled memory of `Memory::new()` and of both resets (R42, R45): no byte listed. -/
def Memory.zeroed : Memory := []

/-- The clearing loop of reset as R106 writes it: one write of 0x00 to every address in turn. The machine uses `Memory.zeroed`; that
the two agree is a statement of its own (log 15). -/
def Memory.clearLoop (m : Memory) : Memory :=
  (List.range Config.memSize).foldl (fun m k => m.write (BitVec.ofNat 16 k) 0x00#8) m

/-- Canonical form from key `lo` on: keys rise strictly, lie below 65536, and no byte is the cleared one. -/
def Memory.wfFrom : Nat → Memory → Bool
  | _, [] => true
  | lo, (k, v) :: m => decide (lo ≤ k) && decide (k < Config.memSize) && v != Config.clearByte && Memory.wfFrom (k + 1) m

/-- The canonical form of a memory, so that equal memories are equal data. -/
def Memory.wf (m : Memory) : Bool := Memory.wfFrom 0 m

/-! ## Instruction stream and budget -/

/-- PC advanced past one byte, wrapping at 65536 (R68). -/
def State.advancePc (s : State) : State := { s with cpu := { s.cpu with pc := s.cpu.pc + 1#16 } }

/-- `Fetch()`: the byte at PC, and PC advanced past it (R68). -/
def State.fetch (s : State) : Byte × State := (s.mem.read s.cpu.pc, s.advancePc)

/-- One cycle taken from the budget of the call in progress (R69). The loop admits an instruction only when the budget covers its cost
(R73), so the subtraction is on a value at least 1 (R77). Between calls there is no budget to take it from. -/
def State.charge (s : State) : State :=
  match s.call with
  | .idle => s
  | .running b => { s with call := .running (b - 1) }
  | .returned _ _ => s

/-- The effect of a charged `Fetch()` whose byte the decoder has already taken: PC past the byte, one cycle gone (R68, R69, R74; log 9). -/
def State.consumeByte (s : State) : State := s.fetch.2.charge

/-- The instruction at PC: its opcode byte and, for a two-byte format, the byte at the next address modulo 65536 (R56, R63). -/
def State.instrAtPc (s : State) : Instr :=
  decodeBytes (s.mem.read s.cpu.pc) (s.mem.read (s.cpu.pc + 1#16))

/-! ## Trace port -/

/-- Hands an event to the trace hook, if one is attached; nothing else changes (R101). -/
def State.emit (e : TraceEvent) (s : State) : State :=
  { s with trace := s.trace.map (fun events => events ++ [e]) }

/-! ## Ending a call -/

/-- The budget left to the call in progress; no call, no budget (R33). -/
def State.budget (s : State) : Nat :=
  match s.call with
  | .idle => 0
  | .running b => b
  | .returned _ _ => 0

/-- `return (status, b)`: the loop is HALTED and the call returns the status with the budget left (R17, R80). It is the one way an
abnormal event is reported: it saves nothing, enters no handler and changes nothing else (R93, R98). -/
def State.returnStatus (st : Status) (s : State) : State := { s with call := .returned st s.budget }

/-- The checks before an instruction whose opcode is `op` begins, and then the instruction `k`: a budget of 0 returns BudgetExhausted
(R72); a budget below the cost returns InsufficientBudget with nothing changed (R73); else the instruction runs (R74). Outside a call
the core does nothing (R8, R104; DEDUCED, log 8). -/
def beginInstr (op : Byte) (k : State → Result) (s : State) : Result :=
  match s.call with
  | .idle => .next s
  | .returned _ _ => .next s
  | .running b =>
    if b = 0 then .next (s.returnStatus .budgetExhausted)
    else if b < costOf op then .next (s.returnStatus (.insufficientBudget op s.cpu.pc))
    else k s

/-- A call in progress whose budget covers `cost`: the one already running if it does, else one with exactly that budget. -/
def Call.withBudgetFor (cost : Nat) (call : Call) : Call :=
  match call with
  | .idle => .running cost
  | .running b => if b < cost then .running cost else .running b
  | .returned _ _ => .running cost

end Sys2Proof.Machine
end

