-- ==== Sys2Proof/Machine/ControlPort.lean ====
section
/-! DEFINITION. The host's side: the commands of the control port and the core's idle state between calls (R10, R55, R104). -/
namespace Sys2Proof.Machine

/-- `Memory::new()`: a zero-filled memory takes the place of the old one; the CPU is not touched (R42, R105; log 11). -/
def State.memoryNew (s : State) : State := { s with mem := Memory.zeroed }

/-- `CPU::new()`: a CPU with every register and flag zero that has not been reset and has made no call; the memory is not touched
(R37, R105; log 11). -/
def State.cpuNew (s : State) : State := { s with cpu := Cpu.new, resetDone := false, call := .idle }

/-- `memory.reset()`: every byte 0; the CPU is not touched (R45). -/
def State.memoryReset (s : State) : State := { s with mem := Memory.zeroed }

/-- `cpu.reset(&mut memory)`: every register and flag to its reset value, every byte of memory 0, `reset_done` set (R106); no call
exists afterwards (R38). -/
def State.cpuReset (s : State) : State :=
  { s with cpu := Cpu.afterReset, mem := Memory.zeroed, resetDone := true, call := .idle }

/-- A host write of one byte (R46, R55). -/
def State.hostWrite (addr : Addr) (v : Byte) (s : State) : State := { s with mem := s.mem.write addr v }

/-- The start of `execute(cycle_budget)`: refused before the first reset (R82); else the budget is set and the loop is RUNNING (R71). -/
def startExecute (budget : BitVec Config.budgetBits) (s : State) : Result :=
  if s.resetDone then .next { s with call := .running budget.toNat } else .refused .notReset

/-- One command of the control port (R10). -/
def runCommand (command : HostCommand) (s : State) : Result :=
  match command with
  | .memoryNew => .next s.memoryNew
  | .cpuNew => .next s.cpuNew
  | .memoryReset => .next s.memoryReset
  | .cpuReset => .next s.cpuReset
  | .write addr v => .next (s.hostWrite addr v)
  | .execute budget => startExecute budget s

/-- What happens between calls: the host's next command; with none pending the core does nothing (R104; DEDUCED, log 10). -/
def hostAct (s : State) : Result :=
  match s.host with
  | [] => .next s
  | command :: rest => runCommand command { s with host := rest }

end Sys2Proof.Machine
end

