-- ==== Sys2Proof/Machine/Flags.lean ====
section
/-! DEFINITION. The one flag computation of the core. -/
namespace Sys2Proof.Machine

/-- `SetLoadFlags(r)`: Z is 1 exactly when `r` is 0x00, N is bit 7 of `r`, and no other state is written (R86). -/
def setLoadFlags (r : Byte) (cpu : Cpu) : Cpu := { cpu with z := r == 0x00#8, n := r[7] }

end Sys2Proof.Machine
end

