-- ==== Sys2Proof/Machine/Operands.lean ====
section
/-! DEFINITION. The two operand forms: immediate and zero page. -/
namespace Sys2Proof.Machine

/-- The immediate operand is the second byte itself, without extension, scaling or shifting (R60). -/
def immediateOperand (imm8 : Byte) : Byte := imm8

/-- The effective address `zext_16(zp8)`, in 0x0000 to 0x00FF; no index is added (R61). -/
def zeroPageAddr (zp8 : Byte) : Addr := zp8.setWidth 16

/-- `ReadZeroPage(zp)`: the byte at the zero-page address; PC does not move (R87, 90_conflicts.md C2). -/
def readZeroPage (zp8 : Byte) (s : State) : Byte := s.mem.read (zeroPageAddr zp8)

end Sys2Proof.Machine
end

