-- ==== Sys2Proof/Machine/Load.lean ====
section
/-! DEFINITION. The load family: LDA Immediate and LDA Zero Page (41_load.md). -/
namespace Sys2Proof.Machine

/-- The common end of both loads: `A <- v; SetLoadFlags(A); emit Executed(state)` (R86, R88, R89, R101). -/
def loadA (v : Byte) (s : State) : State :=
  let cpu := setLoadFlags v { s.cpu with a := v }
  State.emit (.executed cpu) { s with cpu := cpu }

/-- LDA Immediate (R88): the opcode fetch, the operand fetch, the load. -/
def execLdaImm (imm8 : Byte) (s : State) : Result :=
  beginInstr ldaImmOpcode (fun s => .next (loadA (immediateOperand imm8) s.consumeByte.consumeByte)) s

/-- LDA Zero Page (R89): the opcode fetch, the address fetch, the charged zero-page read that leaves PC alone, the load. -/
def execLdaZp (zp8 : Byte) (s : State) : Result :=
  beginInstr ldaZpOpcode (fun s => .next (loadA (readZeroPage zp8 s) s.consumeByte.consumeByte.charge)) s

end Sys2Proof.Machine
end

