-- ==== Sys2Proof/Machine/Unrecognized.lean ====
section
/-! DEFINITION. The dispatch miss: what every opcode other than 0xA9 and 0xA5 does (42_unrecognized.md). -/
namespace Sys2Proof.Machine

/-- Unrecognized opcode (R90): after the opcode fetch the miss is reported with the address the opcode was fetched from, and the call
returns the budget that is left. Registers, flags and memory keep their values. -/
def execUnrecognized (op : Byte) (s : State) : Result :=
  beginInstr op (fun s =>
    .next (State.returnStatus (.unknownOpcode op s.cpu.pc) (State.emit (.miss op s.cpu.pc) s.consumeByte))) s

end Sys2Proof.Machine
end

