-- ==== Sys2Proof/Machine/Step.lean ====
section
/-! DEFINITION. One step: inside a call one pass of the loop, between calls one command of the host; and the state from which the next step runs a given word. -/
namespace Sys2Proof.Machine

/-- One step (log 1). Inside a call: the instruction at PC, with the checks that precede it (R72 to R76). Between calls: the host's
next command (R8, R55). -/
def step (s : State) : Host.Outcome State Fault Refusal :=
  match s.call with
  | .running _ => exec s.instrAtPc s
  | .idle => hostAct s
  | .returned _ _ => hostAct s

/-- `s` with a table word stored where the next step fetches its instruction, inside a call whose budget lets it begin (log 3). -/
def State.withFetchWord (s : State) (nbits w : Nat) : State :=
  { s with
    mem := (s.mem.write s.cpu.pc (tableBytes nbits w).1).write (s.cpu.pc + 1#16) (tableBytes nbits w).2
    resetDone := true
    call := s.call.withBudgetFor (costOf (tableBytes nbits w).1) }

end Sys2Proof.Machine
end

