-- ==== Sys2Proof/Machine/Execute.lean ====
section
/-! DEFINITION. The loop of `execute` transcribed from the pseudocode that R78 calls its normative form. The machine does not use it; the
statements hold `step` against it. Unlike the meanings it decodes nothing: every byte comes from `Fetch` at the moment it is used. -/
namespace Sys2Proof.Machine

/-- How one pass of the loop ends: it goes on with budget `b`, or the call returns. -/
inductive LoopResult where
  /-- The handler completed; the next pass starts with `b` cycles (R76). -/
  | again (s : State) (b : Nat)
  /-- The call returns `(status, remaining)` (R80). -/
  | done (s : State) (status : Status) (remaining : Nat)
  deriving DecidableEq, Repr

/-- `A <- v; SetLoadFlags(A); emit Executed(state)`, as R78 has it. -/
def pseudoLoad (v : Byte) (s : State) : State :=
  let s := { s with cpu := { s.cpu with a := v } }
  let s := { s with cpu := setLoadFlags s.cpu.a s.cpu }
  s.emit (.executed s.cpu)

/-- One pass of the loop, with the budget `b` as the call's local variable (R72 to R76, R78). -/
def loopPass (s : State) (b : Nat) : LoopResult :=
  if b = 0 then .done s .budgetExhausted 0
  else
    let op := s.mem.read s.cpu.pc
    if costOf op > b then .done s (.insufficientBudget op s.cpu.pc) b
    else
      let a := s.cpu.pc
      let (op, s) := s.fetch
      let b := b - 1
      if op = 0xA9#8 then
        let (v, s) := s.fetch
        let b := b - 1
        .again (pseudoLoad v s) b
      else if op = 0xA5#8 then
        let (zp, s) := s.fetch
        let b := b - 1
        let v := readZeroPage zp s
        let b := b - 1
        .again (pseudoLoad v s) b
      else .done (s.emit (.miss op a)) (.unknownOpcode op a) b

/-- The whole loop with at most `fuel` passes; `none` if it has not returned by then. -/
def executeLoop : Nat → State → Nat → Option (State × Status × Nat)
  | 0, _, _ => none
  | fuel + 1, s, b =>
    match loopPass s b with
    | .again s' b' => executeLoop fuel s' b'
    | .done s' status remaining => some (s', status, remaining)

end Sys2Proof.Machine
end

