-- ==== Sys2Proof/Safety.lean ====
section
/-! DEFINITION. The terms claims are stated in: the invariants of a run, what a step returns, and the part of a state a program or the host's results can depend on. -/
namespace Sys2Proof.Machine

/-- The registers no instruction writes hold their reset values, and Z and N agree with A once a load has run; before the first load
after a reset A, Z and N are all 0 (R39). -/
def Cpu.betweenResets (cpu : Cpu) : Bool :=
  cpu.x == 0x00#8 && cpu.y == 0x00#8 && cpu.sp == 0x00FF#16 &&
  !cpu.c && !cpu.i && !cpu.d && !cpu.b && !cpu.o &&
  ((cpu.a == 0x00#8 && !cpu.z && !cpu.n) || (cpu.z == (cpu.a == 0x00#8) && cpu.n == cpu.a[7]))

/-- The register file is as `CPU::new()` left it (R37), or a reset has been done and it is as R39 says. -/
def registersConsistent (s : State) : Bool :=
  if s.resetDone then s.cpu.betweenResets else s.cpu == Cpu.new

/-- A reported status agrees with the budget it returns and with PC (R80, R81). -/
def statusConsistent (status : Status) (remaining : Nat) (pc : Addr) : Bool :=
  match status with
  | .budgetExhausted => remaining == 0
  | .insufficientBudget op addr => decide (0 < remaining) && decide (remaining < costOf op) && pc == addr
  | .unknownOpcode op addr => (Instr.unrecognized op).wellFormed && pc == addr + 1#16

/-- A call exists only after a reset (R82), its budget and what it returns are below 2^32 (R77, R102), and its result is consistent. -/
def callConsistent (s : State) : Bool :=
  match s.call with
  | .idle => true
  | .running b => s.resetDone && decide (b < 2 ^ Config.budgetBits)
  | .returned status remaining =>
    s.resetDone && decide (remaining < 2 ^ Config.budgetBits) && statusConsistent status remaining s.cpu.pc

/-- The invariant of the machine. -/
abbrev State.Inv (s : State) : Prop :=
  s.mem.wf = true ∧ callConsistent s = true ∧ registersConsistent s = true

/-- The state with the trace hook detached: all that is architectural (R101). -/
def State.untraced (s : State) : State := { s with trace := none }

/-- An outcome seen through a function of its next state. -/
def mapNext (f : State → State) (r : Result) : Result :=
  match r with
  | .next s => .next (f s)
  | .fault e => .fault e
  | .refused e => .refused e

/-- The next state of an outcome, if it is one. -/
def nextState (r : Result) : Option State :=
  match r with
  | .next s => some s
  | .fault _ => none
  | .refused _ => none

/-- A state with the registers and flags no instruction reads (R21, R22, R26, R28, R29) replaced by those of `cpu`: all but A and PC. -/
def State.withUnreadOf (cpu : Cpu) (s : State) : State :=
  { s with cpu := { cpu with a := s.cpu.a, pc := s.cpu.pc } }

end Sys2Proof.Machine
end

