-- ==== Sys2Proof/Certificates/Slice0/Obligations.lean ====
section
/-! DEFINITION. The statements for the provers, each from a numbered rule of spec/ or derived from the sections its docstring names. -/
open Sys2Proof Sys2Proof.Machine

/-! ## Encoding -/

/-- Decode and encode agree (R57 to R60, R62): the bytes of a well-formed instruction, whatever follows them, decode to that
instruction with every operand at its value, and nothing of what follows is consumed. -/
def Obligations.DecodeOfEncodeIsIdentity : Prop :=
  ∀ (i : Instr) (rest : List Byte), i.wellFormed = true → decode (encode i ++ rest) = .instr i rest

/-- Each encoding has one meaning (R62, R63): what the decoder reads is well-formed, and encoding it gives back the bytes read. -/
def Obligations.EncodeOfDecodeIsIdentity : Prop :=
  ∀ (bytes : List Byte) (i : Instr) (rest : List Byte),
    decode bytes = .instr i rest → i.wellFormed = true ∧ encode i ++ rest = bytes

/-- R63: every byte value falls under exactly one of the three rows of the opcode map, and decodes to it. -/
def Obligations.EveryByteDecodesToExactlyOneRow : Prop :=
  ∀ op operand : Byte, ∀ rest : List Byte,
    (∃! f : Format, (f = .opImm8 ∧ op = 0xA9#8) ∨ (f = .opZp8 ∧ op = 0xA5#8) ∨ (f = .op ∧ op ≠ 0xA9#8 ∧ op ≠ 0xA5#8)) ∧
    decode (op :: operand :: rest) =
      if op = 0xA9#8 then .instr (.ldaImm operand) rest
      else if op = 0xA5#8 then .instr (.ldaZp operand) rest
      else .instr (.unrecognized op) (operand :: rest)

/-- R91: the unrecognized opcodes are exactly the 254 values 0x00 to 0xA4, 0xA6 to 0xA8 and 0xAA to 0xFF. -/
def Obligations.UnrecognizedOpcodesAreThe254OtherValues : Prop :=
  (∀ op operand : Byte, decodeBytes op operand = .unrecognized op ↔
    (op.toNat ≤ 0xA4 ∨ (0xA6 ≤ op.toNat ∧ op.toNat ≤ 0xA8) ∨ (0xAA ≤ op.toNat ∧ op.toNat ≤ 0xFF))) ∧
  ((List.range 256).filter (fun k => decide (decodeBytes (BitVec.ofNat 8 k) 0x00#8 = .unrecognized (BitVec.ofNat 8 k)))).length = 254

/-- R56: an instruction is one or two bytes at consecutive addresses modulo 65536, and the opcode byte alone fixes how many: 2 for 0xA9
and 0xA5, 1 for every other value. -/
def Obligations.InstructionLengthIsFixedByTheOpcode : Prop :=
  (∀ op : Byte, lengthOf op = if op = 0xA9#8 then 2 else if op = 0xA5#8 then 2 else 1) ∧
  (∀ op operand : Byte, ∀ rest : List Byte,
    ∃ i, decode (op :: operand :: rest) = .instr i ((op :: operand :: rest).drop (lengthOf op)) ∧
      (encode i).length = lengthOf op) ∧
  (∀ s : State, ∃ next : Addr, next.toNat = (s.cpu.pc.toNat + 1) % 65536 ∧
    ∃ rest, decode [s.mem.read s.cpu.pc, s.mem.read next] = .instr s.instrAtPc rest)

/-- Words written out from the formats of R57, R58 and R59 decode to what they stand for. That the 8-bit table word 0xA5, which carries no
operand bits, decodes with operand 0x00 is no rule of the spec: it is the model's choice of zeros above a table word's bits (DESIGN
CHOICE, log 13). That a 16-bit table word such as 0x42A9 holds the opcode in bits 7..0 and the byte after it in bits 15..8 is the
model's choice as well (DESIGN CHOICE, log 16), since the spec fixes no byte order (R48). -/
def Obligations.WordsWrittenFromTheFormatsDecode : Prop :=
  decode [0b10101001#8, 0b01000010#8] = .instr (.ldaImm 0x42#8) [] ∧
  decode [0b10100101#8, 0b00010000#8] = .instr (.ldaZp 0x10#8) [] ∧
  decode [0b11111111#8, 0b01000010#8] = .instr (.unrecognized 0xFF#8) [0x42#8] ∧
  decodeTableWord 16 0x42A9 = some (.ldaImm 0x42#8) ∧
  decodeTableWord 8 0xA5 = some (.ldaZp 0x00#8) ∧
  decodeTableWord 8 0x00 = some (.unrecognized 0x00#8)

/-! ## Fetch and the step -/

/-- R68: `Fetch` returns the byte at PC and advances PC by 1, wrapping at 65536; nothing else changes. -/
def Obligations.FetchReadsTheByteAtPcAndAdvances : Prop :=
  ∀ s : State,
    s.fetch.1 = s.mem.read s.cpu.pc ∧
    s.fetch.2 = { s with cpu := { s.cpu with pc := s.fetch.2.cpu.pc } } ∧
    s.fetch.2.cpu.pc.toNat = (s.cpu.pc.toNat + 1) % 65536

/-- R74, R75: inside a call, when the bytes at PC decode to a well-formed instruction, the step is that instruction's meaning at that
state. The meaning itself moves PC past the instruction's bytes; the step adds nothing around it. -/
def Obligations.StepRunsTheDecodedInstruction : Prop :=
  ∀ (s : State) (b : Nat) (i : Instr) (rest : List Byte),
    s.call = .running b → decode [s.mem.read s.cpu.pc, s.mem.read (s.cpu.pc + 1#16)] = .instr i rest → i.wellFormed = true →
    step s = exec i s

/-- The model's own interface (log 3; the word's bytes as in log 13 and log 16): from the state that holds a table word where the next step fetches, with a memory in canonical
form, the step runs the word's instruction, with a budget that lets it begin. -/
def Obligations.WordPlacedForFetchIsRun : Prop :=
  ∀ (s : State) (nbits w : Nat) (i : Instr), s.mem.wf = true → decodeTableWord nbits w = some i →
    step (s.withFetchWord nbits w) = exec i (s.withFetchWord nbits w) ∧
    ∃ b, (s.withFetchWord nbits w).call = .running b ∧ costOf i.opcode ≤ b

/-! ## The loop and the budget -/

/-- R70: the cost of an instruction, a function of its opcode byte, is the number of memory bytes it reads: the bytes of the
instruction and, for LDA Zero Page, one byte of data. -/
def Obligations.CostIsTheNumberOfBytesRead : Prop :=
  ∀ op : Byte, costOf op = (if op = 0xA9#8 then 2 else if op = 0xA5#8 then 3 else 1) ∧
    costOf op = lengthOf op + (if op = 0xA5#8 then 1 else 0)

/-- R72: with a budget of 0 the call returns `(BudgetExhausted, 0)` and no state changes, whatever memory holds; a call made with budget
0 does just that. -/
def Obligations.BudgetOfZeroReturnsBudgetExhausted : Prop :=
  (∀ s : State, s.call = .running 0 → step s = .next { s with call := .returned .budgetExhausted 0 }) ∧
  (∀ (s : State) (rest : List HostCommand), (∀ b, s.call ≠ .running b) → s.resetDone = true → s.host = .execute 0#32 :: rest →
    core.run 2 s = .next { s with host := rest, call := .returned .budgetExhausted 0 })

/-- R73: an instruction that costs more than the budget left is not begun: the call returns InsufficientBudget with the opcode and its
address, and PC, registers, flags, memory and budget are unchanged. An unrecognized opcode never returns it. -/
def Obligations.OverBudgetInstructionIsNotBegun : Prop :=
  ∀ (s : State) (b : Nat), s.call = .running b → 0 < b →
    (b < costOf (s.mem.read s.cpu.pc) →
      step s = .next { s with call := .returned (.insufficientBudget (s.mem.read s.cpu.pc) s.cpu.pc) b }) ∧
    (s.mem.read s.cpu.pc ≠ 0xA9#8 → s.mem.read s.cpu.pc ≠ 0xA5#8 →
      ∃ t, step s = .next t ∧ ∀ op addr r, t.call ≠ .returned (.insufficientBudget op addr) r)

/-- R77: a completed instruction lowers the budget by exactly its cost, an unrecognized opcode by 1; the budget never goes below 0 and
never exceeds what it was. -/
def Obligations.CompletedInstructionsLowerTheBudgetByTheirCost : Prop :=
  ∀ (s : State) (b : Nat), s.call = .running b →
    ∃ t, step s = .next t ∧
      (∀ b', t.call = .running b' → b' + costOf (s.mem.read s.cpu.pc) = b) ∧
      (∀ op addr r, t.call = .returned (.unknownOpcode op addr) r → r + 1 = b) ∧
      (∀ st r, t.call = .returned st r → r ≤ b)

/-- R97: at most one event is reported, in this order: the budget-zero check, the budget-sufficiency check, the dispatch. Only the
dispatch of an unrecognized opcode reports UnknownOpcode; a load that fits the budget reports nothing and the call goes on. -/
def Obligations.EventsAreCheckedInOrder : Prop :=
  ∀ (s : State) (b : Nat), s.call = .running b →
    ∃ t, step s = .next t ∧
      (b = 0 → t.call = .returned .budgetExhausted 0) ∧
      (0 < b → b < costOf (s.mem.read s.cpu.pc) →
        t.call = .returned (.insufficientBudget (s.mem.read s.cpu.pc) s.cpu.pc) b) ∧
      (costOf (s.mem.read s.cpu.pc) ≤ b → s.mem.read s.cpu.pc ≠ 0xA9#8 → s.mem.read s.cpu.pc ≠ 0xA5#8 →
        t.call = .returned (.unknownOpcode (s.mem.read s.cpu.pc) s.cpu.pc) (b - 1)) ∧
      (costOf (s.mem.read s.cpu.pc) ≤ b → (s.mem.read s.cpu.pc = 0xA9#8 ∨ s.mem.read s.cpu.pc = 0xA5#8) →
        ∃ b', t.call = .running b')

/-- R98: entry into the halted state saves nothing and changes nothing beyond the instruction's own effect. After UnknownOpcode(op, a)
PC is a + 1 and every register, flag and memory byte is as it was; after the other two nothing at all has changed. -/
def Obligations.HaltChangesNothingElse : Prop :=
  ∀ (s t : State) (b : Nat) (st : Status) (r : Nat),
    s.call = .running b → step s = .next t → t.call = .returned st r →
    match st with
    | .unknownOpcode _ addr =>
      addr = s.cpu.pc ∧
      t = { s with cpu := { s.cpu with pc := s.cpu.pc + 1#16 }, call := .returned st r, trace := t.trace }
    | .insufficientBudget _ _ => t = { s with call := .returned st r }
    | .budgetExhausted => t = { s with call := .returned st r }

/-- R84: every call terminates. A call with `b` cycles left returns within `b / 2` loads and the one step that ends it. -/
def Obligations.EveryCallReturns : Prop :=
  ∀ (s : State) (b : Nat), s.call = .running b →
    ∃ (k : Nat) (t : State) (st : Status) (r : Nat),
      k ≤ b / 2 + 1 ∧ core.run k s = .next t ∧ t.call = .returned st r ∧ r ≤ b

/-- R78: inside a call, a step is one pass of the pseudocode that the spec calls the normative form of the loop. -/
def Obligations.StepRefinesThePseudocode : Prop :=
  ∀ (s : State) (b : Nat), s.call = .running b →
    step s = match loopPass s b with
      | .again s' b' => .next { s' with call := .running b' }
      | .done s' st r => .next { s' with call := .returned st r }

/-- R78 whole: a call of `execute` before any reset is refused; after one it runs to the status, the remaining budget and the state that
the pseudocode's loop gives, with no host command taken on the way. -/
def Obligations.ExecuteCallRefinesThePseudocode : Prop :=
  ∀ (s : State) (budget : BitVec Config.budgetBits) (rest : List HostCommand),
    (∀ b, s.call ≠ .running b) → s.host = .execute budget :: rest →
    if s.resetDone then
      ∃ (k : Nat) (s' : State) (st : Status) (r : Nat),
        executeLoop (budget.toNat / 2 + 1) { s with host := rest } budget.toNat = some (s', st, r) ∧
        core.run k s = .next { s' with call := .returned st r } ∧ s'.host = rest
    else step s = .refused .notReset

/-! ## The instructions -/

/-- R88: LDA Immediate, with a budget of at least 2, loads its operand into A, sets Z and N from it, advances PC by 2 and takes 2
cycles; every other register and flag, memory and the host's commands are unchanged. The trace record is left open (R101). -/
def Obligations.LdaImmediateLoadsItsOperand : Prop :=
  ∀ (s : State) (b : Nat) (imm8 : Byte), s.call = .running b → 2 ≤ b →
    ∃ tr, exec (.ldaImm imm8) s = .next
      { s with
        cpu := { s.cpu with a := imm8, z := imm8 == 0x00#8, n := imm8[7], pc := s.cpu.pc + 2#16 }
        call := .running (b - 2)
        trace := tr }

/-- R89: LDA Zero Page, with a budget of at least 3, loads the byte at the 16-bit zero extension of its operand into A, sets Z and N
from it, advances PC by 2 (not by 3) and takes 3 cycles; all else is unchanged. The trace record is left open (R101). -/
def Obligations.LdaZeroPageLoadsTheByteItNames : Prop :=
  ∀ (s : State) (b : Nat) (zp8 : Byte), s.call = .running b → 3 ≤ b →
    ∃ tr, exec (.ldaZp zp8) s = .next
      { s with
        cpu := { s.cpu with
          a := s.mem.read (zp8.setWidth 16)
          z := s.mem.read (zp8.setWidth 16) == 0x00#8
          n := (s.mem.read (zp8.setWidth 16))[7]
          pc := s.cpu.pc + 2#16 }
        call := .running (b - 3)
        trace := tr }

/-- R90: an unrecognized opcode, with any positive budget, is consumed, takes one cycle and ends the call with UnknownOpcode, its own
byte and the address it stood at; every register, flag and byte of memory keeps its value. The trace record is left open (R101). -/
def Obligations.UnrecognizedOpcodeEndsTheCall : Prop :=
  ∀ (s : State) (b : Nat) (op : Byte), s.call = .running b → 1 ≤ b → op ≠ 0xA9#8 → op ≠ 0xA5#8 →
    ∃ tr, exec (.unrecognized op) s = .next
      { s with
        cpu := { s.cpu with pc := s.cpu.pc + 1#16 }
        call := .returned (.unknownOpcode op s.cpu.pc) (b - 1)
        trace := tr }

/-- R8, R104, as the model takes them (DEDUCED, log 8): outside a call no instruction does anything. -/
def Obligations.InstructionsRunOnlyInsideACall : Prop :=
  ∀ (i : Instr) (s : State), (∀ b, s.call ≠ .running b) → exec i s = .next s

/-- R86: SetLoadFlags writes Z (1 exactly when the byte is 0x00) and N (its bit 7) and nothing else. -/
def Obligations.SetLoadFlagsWritesZAndNOnly : Prop :=
  ∀ (r : Byte) (cpu : Cpu),
    ((setLoadFlags r cpu).z = true ↔ r = 0x00#8) ∧
    ((setLoadFlags r cpu).n = true ↔ 0x80 ≤ r.toNat) ∧
    setLoadFlags r cpu = { cpu with z := (setLoadFlags r cpu).z, n := (setLoadFlags r cpu).n }

/-- R30: after any load instruction Z tells whether the byte now in A is 0, N is its bit 7, and no other flag is touched. -/
def Obligations.LoadsSetZAndNFromTheLoadedByte : Prop :=
  ∀ (i : Instr) (s : State) (b : Nat) (v : Byte), (i = .ldaImm v ∨ i = .ldaZp v) → s.call = .running b → costOf i.opcode ≤ b →
    ∃ t, exec i s = .next t ∧ t.cpu.z = (t.cpu.a == 0x00#8) ∧ t.cpu.n = t.cpu.a[7] ∧
      t.cpu.c = s.cpu.c ∧ t.cpu.i = s.cpu.i ∧ t.cpu.d = s.cpu.d ∧ t.cpu.b = s.cpu.b ∧ t.cpu.o = s.cpu.o

/-- R61, R87: the effective address of a zero-page operand is the operand byte, in 0x0000 to 0x00FF, with no index, and the byte read is
the one memory holds there. -/
def Obligations.ZeroPageOperandNamesOneOfTheFirst256Bytes : Prop :=
  ∀ (zp8 : Byte) (s : State), (zeroPageAddr zp8).toNat = zp8.toNat ∧ (zeroPageAddr zp8).toNat ≤ 0x00FF ∧
    readZeroPage zp8 s = s.mem.read (zeroPageAddr zp8)

/-! ## Frames -/

/-- The frame of every instruction (R19, R21, R22, R26, R29, R44, R83): X, Y, SP, C, I, D, B, O, every byte of memory and the host's
commands are unchanged; an unrecognized opcode leaves A, Z and N unchanged too (R90). -/
def Obligations.InstructionsLeaveAllElseUnchanged : Prop :=
  ∀ (i : Instr) (s t : State), exec i s = .next t →
    (∀ addr, t.mem.read addr = s.mem.read addr) ∧
    t.cpu.x = s.cpu.x ∧ t.cpu.y = s.cpu.y ∧ t.cpu.sp = s.cpu.sp ∧
    t.cpu.c = s.cpu.c ∧ t.cpu.i = s.cpu.i ∧ t.cpu.d = s.cpu.d ∧ t.cpu.b = s.cpu.b ∧ t.cpu.o = s.cpu.o ∧
    t.resetDone = s.resetDone ∧ t.host = s.host ∧
    (∀ op, i = .unrecognized op → t.cpu.a = s.cpu.a ∧ t.cpu.z = s.cpu.z ∧ t.cpu.n = s.cpu.n)

/-- R44: the CPU never writes memory. A byte changes only between calls, by a host write, by one of the two resets, or because the host
constructs a new memory. -/
def Obligations.OnlyTheHostAndTheResetsWriteMemory : Prop :=
  ∀ (s t : State), step s = .next t → (∃ addr, t.mem.read addr ≠ s.mem.read addr) →
    (∀ b, s.call ≠ .running b) ∧
    ∃ command rest, s.host = command :: rest ∧
      ((∃ addr v, command = .write addr v) ∨ command = .memoryReset ∨ command = .cpuReset ∨ command = .memoryNew)

/-- R24, R85: an instruction that completes leaves PC at its own address plus its length, modulo 65536; and PC changes only inside a call,
by `cpu.reset`, or because the host constructs a new CPU. -/
def Obligations.PcMovesByTheLengthOfTheInstruction : Prop :=
  (∀ (s t : State) (b b' : Nat), s.call = .running b → step s = .next t → t.call = .running b' →
    t.cpu.pc.toNat = (s.cpu.pc.toNat + lengthOf (s.mem.read s.cpu.pc)) % 65536) ∧
  (∀ (s t : State), step s = .next t → t.cpu.pc ≠ s.cpu.pc → (∀ b, s.call ≠ .running b) →
    ∃ rest, s.host = .cpuReset :: rest ∨ s.host = .cpuNew :: rest)

/-! ## Calls, reset and the host -/

/-- R71: a call of `execute` after a reset sets the budget and the loop state RUNNING; nothing else changes, so the call goes on from the
PC that the last one left. -/
def Obligations.ExecuteStartsACallWithItsBudget : Prop :=
  ∀ (s : State) (budget : BitVec Config.budgetBits) (rest : List HostCommand),
    (∀ b, s.call ≠ .running b) → s.resetDone = true → s.host = .execute budget :: rest →
    step s = .next { s with host := rest, call := .running budget.toNat }

/-- R82: a call of `execute` before any reset is refused, and that is the one thing the machine ever refuses; it never faults (R93). -/
def Obligations.OnlyExecuteBeforeResetIsRefused : Prop :=
  (∀ (s : State) (r : Refusal), step s = .refused r ↔
    r = .notReset ∧ (∀ b, s.call ≠ .running b) ∧ s.resetDone = false ∧ ∃ budget rest, s.host = .execute budget :: rest) ∧
  (∀ (s : State) (f : Fault), step s ≠ .fault f)

/-- R81: an instruction that the budget of one call did not cover is executed by a later call whose budget covers it. -/
def Obligations.OverBudgetInstructionRunsInALaterCall : Prop :=
  ∀ (s : State) (b : Nat) (budget : BitVec Config.budgetBits) (rest : List HostCommand),
    s.call = .running b → 0 < b → b < costOf (s.mem.read s.cpu.pc) → s.resetDone = true →
    s.host = .execute budget :: rest → costOf (s.mem.read s.cpu.pc) ≤ budget.toNat →
    core.run 3 s = exec s.instrAtPc { s with host := rest, call := .running budget.toNat }

/-- R106: `cpu.reset` cannot fail; it gives every register and flag its reset value, zero-fills memory and sets `reset_done`. -/
def Obligations.CpuResetSetsEveryRegisterAndClearsMemory : Prop :=
  ∀ (s : State) (rest : List HostCommand), (∀ b, s.call ≠ .running b) → s.host = .cpuReset :: rest →
    ∃ t, step s = .next t ∧ (∀ addr, t.mem.read addr = 0x00#8) ∧ t.resetDone = true ∧ t.host = rest ∧
      t.cpu = { a := 0x00#8, x := 0x00#8, y := 0x00#8, pc := 0xFFFC#16, sp := 0x00FF#16
                c := false, z := false, i := false, d := false, b := false, o := false, n := false }

/-- R107: the state after a reset does not depend on the state before it, and a second reset changes nothing. -/
def Obligations.ResetIsIdempotentAndForgetsThePast : Prop :=
  (∀ (s s' : State) (rest : List HostCommand), (∀ b, s.call ≠ .running b) → (∀ b, s'.call ≠ .running b) →
    s.host = .cpuReset :: rest → s'.host = .cpuReset :: rest → s.trace = s'.trace → step s = step s') ∧
  (∀ (s : State) (rest : List HostCommand), (∀ b, s.call ≠ .running b) → s.host = .cpuReset :: .cpuReset :: rest →
    core.run 2 s = step { s with host := .cpuReset :: rest })

/-- R106's clearing loop, one write of 0 to each of the 65536 addresses, leaves a canonical memory with nothing listed, which is what the
machine's reset puts there in one go (log 15). -/
def Obligations.ClearingLoopGivesTheZeroedMemory : Prop :=
  ∀ m : Memory, m.wf = true → m.clearLoop = Memory.zeroed

/-- R42, R45: `memory.reset()` makes every byte 0 and touches nothing else; a new memory is zero-filled as well. -/
def Obligations.MemoryResetAndNewMemoryAreZeroFilled : Prop :=
  ∀ (s : State) (rest : List HostCommand) (command : HostCommand), (∀ b, s.call ≠ .running b) →
    (command = .memoryReset ∨ command = .memoryNew) → s.host = command :: rest →
    ∃ m, (∀ addr, Memory.read m addr = 0x00#8) ∧ step s = .next { s with mem := m, host := rest }

/-- R37, R105: `CPU::new()` gives zero in every register and flag, PC 0, SP 0 and `reset_done` false, and does not touch memory. -/
def Obligations.CpuNewIsAllZeroAndNotReset : Prop :=
  ∀ (s : State) (rest : List HostCommand), (∀ b, s.call ≠ .running b) → s.host = .cpuNew :: rest →
    ∃ t, step s = .next t ∧ t.mem = s.mem ∧ t.resetDone = false ∧ t.host = rest ∧
      t.cpu = { a := 0x00#8, x := 0x00#8, y := 0x00#8, pc := 0x0000#16, sp := 0x0000#16
                c := false, z := false, i := false, d := false, b := false, o := false, n := false }

/-- R38: the values after reset. -/
def Obligations.ResetStateHoldsTheResetValues : Prop :=
  State.reset.cpu.pc = 0xFFFC#16 ∧ State.reset.cpu.sp = 0x00FF#16 ∧
  State.reset.cpu.a = 0x00#8 ∧ State.reset.cpu.x = 0x00#8 ∧ State.reset.cpu.y = 0x00#8 ∧
  State.reset.cpu.c = false ∧ State.reset.cpu.z = false ∧ State.reset.cpu.i = false ∧ State.reset.cpu.d = false ∧
  State.reset.cpu.b = false ∧ State.reset.cpu.o = false ∧ State.reset.cpu.n = false ∧
  (∀ addr, State.reset.mem.read addr = 0x00#8) ∧ State.reset.resetDone = true ∧
  (∀ b, State.reset.call ≠ .running b)

/-- R104: between calls, with no command from the host, the core does nothing. -/
def Obligations.BetweenCallsTheCoreDoesNothing : Prop :=
  ∀ s : State, (∀ b, s.call ≠ .running b) → s.host = [] → step s = .next s

/-! ## Memory -/

/-- R46: a host write changes exactly the one byte it names; no register, flag or other byte changes. -/
def Obligations.HostWriteChangesExactlyOneByte : Prop :=
  ∀ (s : State) (addr : Addr) (v : Byte) (rest : List HostCommand), s.mem.wf = true → (∀ b, s.call ≠ .running b) →
    s.host = .write addr v :: rest →
    ∃ m, step s = .next { s with mem := m, host := rest } ∧
      ∀ addr', m.read addr' = if addr' = addr then v else s.mem.read addr'

/-- R50: after any series of host writes, each address reads as the last byte written to it, or as before if none was. -/
def Obligations.ReadsReturnTheLastHostWrite : Prop :=
  ∀ (s : State) (writes : List (Addr × Byte)) (rest : List HostCommand), s.mem.wf = true → (∀ b, s.call ≠ .running b) →
    s.host = writes.map (fun w => HostCommand.write w.1 w.2) ++ rest →
    ∃ m, core.run writes.length s = .next { s with mem := m, host := rest } ∧
      ∀ addr, m.read addr = ((writes.reverse.find? (fun w => w.1 == addr)).map Prod.snd).getD (s.mem.read addr)

/-- R52: a byte the host writes at PC before a call is the byte the call's first fetch returns. -/
def Obligations.HostWriteBeforeACallIsFetched : Prop :=
  ∀ (s : State) (v : Byte) (budget : BitVec Config.budgetBits) (rest : List HostCommand), s.mem.wf = true →
    (∀ b, s.call ≠ .running b) → s.resetDone = true → s.host = .write s.cpu.pc v :: .execute budget :: rest →
    ∃ t, core.run 2 s = .next t ∧ t.call = .running budget.toNat ∧ t.fetch.1 = v

/-- R109: a byte written before the reset is lost: the call after the reset meets the opcode 0x00 at 0xFFFC, whatever was written. -/
def Obligations.ByteWrittenBeforeResetIsLost : Prop :=
  ∀ (s : State) (addr : Addr) (v : Byte) (budget : BitVec Config.budgetBits) (rest : List HostCommand),
    (∀ b, s.call ≠ .running b) → s.host = .write addr v :: .cpuReset :: .execute budget :: rest → 1 ≤ budget.toNat →
    ∃ t, core.run 4 s = .next t ∧ t.cpu.pc = 0xFFFD#16 ∧ t.cpu.a = 0x00#8 ∧
      t.call = .returned (.unknownOpcode 0x00#8 0xFFFC#16) (budget.toNat - 1)

/-- Equal memories are equal data: two canonical memories that read alike at all of the 65536 addresses (R40) are the same list. -/
def Obligations.MemoriesThatReadAlikeAreEqual : Prop :=
  ∀ m m' : Memory, m.wf = true → m'.wf = true → (∀ addr, m.read addr = m'.read addr) → m = m'

/-- Every step keeps the canonical form of memory. -/
def Obligations.StepKeepsMemoryCanonical : Prop :=
  ∀ s t : State, s.mem.wf = true → step s = .next t → t.mem.wf = true

/-! ## Invariants -/

/-- The invariant holds at reset. -/
def Obligations.InvariantHoldsAtReset : Prop := State.reset.Inv

/-- Every step keeps the invariant, from every state that meets it: canonical memory; a call only after a reset, its budget and its
result below 2^32 and in agreement with PC (R77, R80, R81, R82; that a result stays at the status port is the model's choice, log 4); and
the registers as R37 and R39 say. -/
def Obligations.EveryStepKeepsTheInvariant : Prop :=
  ∀ s t : State, s.Inv → step s = .next t → t.Inv

/-- R39 as a step lemma: from every state after a reset whose registers are as R39 says, whatever its memory, call and commands, a step that
takes no `CPU::new()` gives such a state again. A host command is taken only between calls. -/
def Obligations.StepKeepsTheRegistersAsR39Says : Prop :=
  ∀ s t : State, s.resetDone = true → s.cpu.betweenResets = true →
    ((∀ b, s.call ≠ .running b) → s.host.head? ≠ some .cpuNew) → step s = .next t →
    t.resetDone = true ∧ t.cpu.betweenResets = true

/-- R39, as a corollary over runs: at every point after a reset, whatever the host then does short of constructing a new CPU (it writes any program, makes any
calls, resets again), X, Y, SP, C, I, D, B and O hold their reset values, and A, Z and N are all 0 or Z and N agree with A. -/
def Obligations.RegistersBetweenResetsAreAsR39Says : Prop :=
  ∀ (commands : List HostCommand) (k : Nat) (t : State), .cpuNew ∉ commands →
    core.run k { State.reset with host := commands } = .next t →
    t.cpu.x = 0x00#8 ∧ t.cpu.y = 0x00#8 ∧ t.cpu.sp = 0x00FF#16 ∧
    t.cpu.c = false ∧ t.cpu.i = false ∧ t.cpu.d = false ∧ t.cpu.b = false ∧ t.cpu.o = false ∧
    ((t.cpu.a = 0x00#8 ∧ t.cpu.z = false ∧ t.cpu.n = false) ∨ (t.cpu.z = (t.cpu.a == 0x00#8) ∧ t.cpu.n = t.cpu.a[7]))

/-! ## What the machine's behaviour depends on -/

/-- R101: a trace event changes no state and cannot stop or delay the core: with the hook detached every step is the same step, but for
the trace record itself. -/
def Obligations.TraceNeverInfluencesTheCore : Prop :=
  ∀ s : State, step s.untraced = mapNext State.untraced (step s)

/-- R101, in the model's form of the trace port (DESIGN CHOICE, log 7): each completed load hands an attached hook one Executed event, a
dispatch miss one Miss event, and nothing else hands it any. What an event holds is not claimed (93 U6). -/
def Obligations.TraceHookReceivesOneEventPerInstruction : Prop :=
  ∀ (s t : State) (b : Nat), s.call = .running b → step s = .next t →
    (∀ b', t.call = .running b' → ∃ cpu, t.trace = s.trace.map (fun events => events ++ [.executed cpu])) ∧
    (∀ op addr r, t.call = .returned (.unknownOpcode op addr) r →
      ∃ op' addr', t.trace = s.trace.map (fun events => events ++ [.miss op' addr'])) ∧
    (∀ op addr r, t.call = .returned (.insufficientBudget op addr) r → t.trace = s.trace) ∧
    (∀ r, t.call = .returned .budgetExhausted r → t.trace = s.trace)

/-- R21, R22, R26, R28, R29: X, Y, SP and the seven flags never influence A, PC, memory, the budget, the result of a call or what the
host does next: replacing them all by those of any register file changes nothing else in the next state. -/
def Obligations.UnreadRegistersNeverInfluenceTheRest : Prop :=
  ∀ (s : State) (cpu : Cpu),
    mapNext (fun t => State.untraced (State.withUnreadOf cpu t)) (step (State.withUnreadOf cpu s)) =
      mapNext (fun t => State.untraced (State.withUnreadOf cpu t)) (step s)

/-- R65, R115: inside a call a step depends on memory only through the bytes the cycle table lists: the opcode at PC, the operand byte of
a load, and the zero-page byte of LDA Zero Page. In particular the byte after an unrecognized opcode is not read. -/
def Obligations.StepDependsOnlyOnTheBytesItReads : Prop :=
  ∀ (s : State) (b : Nat) (m : Memory), s.call = .running b →
    m.read s.cpu.pc = s.mem.read s.cpu.pc →
    ((s.mem.read s.cpu.pc = 0xA9#8 ∨ s.mem.read s.cpu.pc = 0xA5#8) → m.read (s.cpu.pc + 1#16) = s.mem.read (s.cpu.pc + 1#16)) →
    (s.mem.read s.cpu.pc = 0xA5#8 →
      m.read ((s.mem.read (s.cpu.pc + 1#16)).setWidth 16) = s.mem.read ((s.mem.read (s.cpu.pc + 1#16)).setWidth 16)) →
    step { s with mem := m } = mapNext (fun t => { t with mem := m }) (step s)
end

