-- ==== Sys2Proof/Laws/Decode.lean ====
section
/-! SUPPORT. What the decoder's functions say of an opcode byte. -/
namespace Sys2Proof

@[simp] theorem formatOf_ldaImm : formatOf ldaImmOpcode = .opImm8 := rfl
@[simp] theorem formatOf_ldaZp : formatOf ldaZpOpcode = .opZp8 := rfl

theorem formatOf_other {op : Byte} (h : (Instr.unrecognized op).wellFormed = true) : formatOf op = .op := by
  simp [Instr.wellFormed] at h
  simp [formatOf, ldaImmOpcode, ldaZpOpcode, h]

/-- Every opcode byte falls under exactly one of three cases: the two loads, or one that is not a load. -/
theorem opcode_cases (op : Byte) :
    (op = ldaImmOpcode ∧ formatOf op = .opImm8) ∨ (op = ldaZpOpcode ∧ formatOf op = .opZp8) ∨
    ((Instr.unrecognized op).wellFormed = true ∧ formatOf op = .op) := by
  by_cases h₁ : op = ldaImmOpcode
  · subst h₁; exact .inl ⟨rfl, rfl⟩
  · by_cases h₂ : op = ldaZpOpcode
    · subst h₂; exact .inr (.inl ⟨rfl, rfl⟩)
    · refine .inr (.inr ⟨?_, by simp [formatOf, h₁, h₂]⟩)
      simpa [Instr.wellFormed, ldaImmOpcode, ldaZpOpcode] using And.intro h₁ h₂

@[simp] theorem costOf_ldaImm : costOf ldaImmOpcode = 2 := rfl
@[simp] theorem costOf_ldaZp : costOf ldaZpOpcode = 3 := rfl
theorem costOf_other {op : Byte} (h : (Instr.unrecognized op).wellFormed = true) : costOf op = 1 := by
  simp [costOf, formatOf_other h]

@[simp] theorem lengthOf_ldaImm : lengthOf ldaImmOpcode = 2 := rfl
@[simp] theorem lengthOf_ldaZp : lengthOf ldaZpOpcode = 2 := rfl
theorem lengthOf_other {op : Byte} (h : (Instr.unrecognized op).wellFormed = true) : lengthOf op = 1 := by
  simp [lengthOf, formatOf_other h]

@[simp] theorem decodeBytes_ldaImm (v : Byte) : decodeBytes ldaImmOpcode v = .ldaImm v := rfl
@[simp] theorem decodeBytes_ldaZp (v : Byte) : decodeBytes ldaZpOpcode v = .ldaZp v := rfl
theorem decodeBytes_other {op : Byte} (h : (Instr.unrecognized op).wellFormed = true) (v : Byte) :
    decodeBytes op v = .unrecognized op := by
  simp [decodeBytes, formatOf_other h]

/-- No opcode costs 0, so a budget of 0 admits nothing. -/
theorem costOf_pos (op : Byte) : 0 < costOf op := by
  unfold costOf; split <;> decide

/-- Everything `decodeBytes` can answer. -/
theorem decodeBytes_cases (op v : Byte) :
    (op = ldaImmOpcode ∧ decodeBytes op v = .ldaImm v) ∨ (op = ldaZpOpcode ∧ decodeBytes op v = .ldaZp v) ∨
    ((Instr.unrecognized op).wellFormed = true ∧ decodeBytes op v = .unrecognized op) := by
  obtain ⟨rfl, -⟩ | ⟨rfl, -⟩ | ⟨h, -⟩ := opcode_cases op
  · exact .inl ⟨rfl, rfl⟩
  · exact .inr (.inl ⟨rfl, rfl⟩)
  · exact .inr (.inr ⟨h, decodeBytes_other h v⟩)

/-- The decoder on two bytes or more: the instruction of the first two, and the bytes after its length. -/
theorem decode_two (op v : Byte) (rest : List Byte) :
    decode (op :: v :: rest) = .instr (decodeBytes op v) ((op :: v :: rest).drop (lengthOf op)) := by
  obtain ⟨rfl, -⟩ | ⟨rfl, -⟩ | ⟨h, -⟩ := opcode_cases op
  · rfl
  · rfl
  · simp [decode, lengthOf_other h, decodeBytes_other h]

end Sys2Proof
end

