-- ==== Sys2Proof/Laws/Flags.lean ====
section
/-! SUPPORT. What SetLoadFlags leaves in each register and flag, and where a zero-page address points. -/
namespace Sys2Proof.Machine

@[simp] theorem setLoadFlags_a (r : Byte) (cpu : Cpu) : (setLoadFlags r cpu).a = cpu.a := rfl
@[simp] theorem setLoadFlags_x (r : Byte) (cpu : Cpu) : (setLoadFlags r cpu).x = cpu.x := rfl
@[simp] theorem setLoadFlags_y (r : Byte) (cpu : Cpu) : (setLoadFlags r cpu).y = cpu.y := rfl
@[simp] theorem setLoadFlags_pc (r : Byte) (cpu : Cpu) : (setLoadFlags r cpu).pc = cpu.pc := rfl
@[simp] theorem setLoadFlags_sp (r : Byte) (cpu : Cpu) : (setLoadFlags r cpu).sp = cpu.sp := rfl
@[simp] theorem setLoadFlags_c (r : Byte) (cpu : Cpu) : (setLoadFlags r cpu).c = cpu.c := rfl
@[simp] theorem setLoadFlags_z (r : Byte) (cpu : Cpu) : (setLoadFlags r cpu).z = (r == 0x00#8) := rfl
@[simp] theorem setLoadFlags_i (r : Byte) (cpu : Cpu) : (setLoadFlags r cpu).i = cpu.i := rfl
@[simp] theorem setLoadFlags_d (r : Byte) (cpu : Cpu) : (setLoadFlags r cpu).d = cpu.d := rfl
@[simp] theorem setLoadFlags_b (r : Byte) (cpu : Cpu) : (setLoadFlags r cpu).b = cpu.b := rfl
@[simp] theorem setLoadFlags_o (r : Byte) (cpu : Cpu) : (setLoadFlags r cpu).o = cpu.o := rfl
@[simp] theorem setLoadFlags_n (r : Byte) (cpu : Cpu) : (setLoadFlags r cpu).n = r[7] := rfl

/-- A zero-page address is the operand byte itself, so it lies in 0x0000 to 0x00FF. -/
@[simp] theorem zeroPageAddr_toNat (zp8 : Byte) : (zeroPageAddr zp8).toNat = zp8.toNat := by
  have := zp8.isLt
  simp only [zeroPageAddr, BitVec.toNat_setWidth]
  omega

@[simp] theorem immediateOperand_eq (imm8 : Byte) : immediateOperand imm8 = imm8 := rfl

end Sys2Proof.Machine
end

