-- ==== Sys2Proof/Laws/Memory.lean ====
section
/-! SUPPORT. Reading after writing, and the canonical form of memory. -/
namespace Sys2Proof.Machine

/-! ## Keys below the first listed one -/

theorem Memory.readAt_below {lo a : Nat} {m : Memory} (h : Memory.wfFrom lo m = true) (ha : a < lo) :
    Memory.readAt m a = Config.clearByte := by
  induction m generalizing lo with
  | nil => rfl
  | cons c m ih =>
    obtain ⟨k, v⟩ := c
    simp only [Memory.wfFrom, Bool.and_eq_true, decide_eq_true_eq] at h
    have hk : k ≠ a := by omega
    simp [Memory.readAt, hk, ih h.2 (by omega)]

theorem Memory.wfFrom_mono {lo lo' : Nat} {m : Memory} (h : Memory.wfFrom lo m = true) (hl : lo' ≤ lo) :
    Memory.wfFrom lo' m = true := by
  cases m with
  | nil => rfl
  | cons c m =>
    obtain ⟨k, v⟩ := c
    simp only [Memory.wfFrom, Bool.and_eq_true, decide_eq_true_eq] at h ⊢
    exact ⟨⟨⟨by omega, h.1.1.2⟩, h.1.2⟩, h.2⟩

/-! ## Writing -/

theorem Memory.readAt_writeAt_self {lo a : Nat} {m : Memory} {v : Byte} (h : Memory.wfFrom lo m = true) :
    Memory.readAt (Memory.writeAt m a v) a = v := by
  induction m generalizing lo with
  | nil =>
    by_cases hv : v = Config.clearByte <;> simp [Memory.writeAt, Memory.readAt, hv]
  | cons c m ih =>
    obtain ⟨k, w⟩ := c
    have h' := h
    simp only [Memory.wfFrom, Bool.and_eq_true, decide_eq_true_eq] at h
    by_cases h₁ : a < k
    · by_cases hv : v = Config.clearByte
      · have hk : k ≠ a := by omega
        simp [Memory.writeAt, h₁, hv, Memory.readAt, hk, Memory.readAt_below h.2 (by omega : a < k + 1)]
      · simp [Memory.writeAt, h₁, hv, Memory.readAt]
    · by_cases h₂ : a = k
      · subst h₂
        by_cases hv : v = Config.clearByte
        · simp [Memory.writeAt, hv, Memory.readAt_below h.2 (by omega : a < a + 1)]
        · simp [Memory.writeAt, hv, Memory.readAt]
      · have hk : ¬k = a := fun e => h₂ e.symm
        simp [Memory.writeAt, h₁, h₂, Memory.readAt, hk, ih h.2]

theorem Memory.readAt_writeAt_other {a a' : Nat} {m : Memory} {v : Byte} (hne : a' ≠ a) :
    Memory.readAt (Memory.writeAt m a v) a' = Memory.readAt m a' := by
  induction m with
  | nil =>
    by_cases hv : v = Config.clearByte <;> simp [Memory.writeAt, Memory.readAt, hv, hne.symm]
  | cons c m ih =>
    obtain ⟨k, w⟩ := c
    unfold Memory.writeAt
    split
    · split
      · rfl
      · simp [Memory.readAt, hne.symm]
    · split
      · split <;> rename_i h _ <;> subst h <;> simp [Memory.readAt, hne.symm]
      · simp [Memory.readAt, ih]

theorem Memory.wfFrom_writeAt {lo a : Nat} {m : Memory} {v : Byte} (h : Memory.wfFrom lo m = true) (hlo : lo ≤ a)
    (ha : a < Config.memSize) : Memory.wfFrom lo (Memory.writeAt m a v) = true := by
  induction m generalizing lo with
  | nil =>
    by_cases hv : v = Config.clearByte <;> simp [Memory.writeAt, Memory.wfFrom, hv, hlo, ha]
  | cons c m ih =>
    obtain ⟨k, w⟩ := c
    have h' := h
    simp only [Memory.wfFrom, Bool.and_eq_true, decide_eq_true_eq, bne_iff_ne, ne_eq] at h
    by_cases h₁ : a < k
    · by_cases hv : v = Config.clearByte
      · simpa [Memory.writeAt, h₁, hv] using h'
      · simp [Memory.writeAt, h₁, hv, Memory.wfFrom, hlo, ha, h.1.1.2, h.1.2, h.2]
    · by_cases h₂ : a = k
      · subst h₂
        by_cases hv : v = Config.clearByte
        · simpa [Memory.writeAt, hv] using Memory.wfFrom_mono h.2 (by omega)
        · simp [Memory.writeAt, hv, Memory.wfFrom, hlo, ha, h.2]
      · simp [Memory.writeAt, h₁, h₂, Memory.wfFrom, h.1.1.1, h.1.1.2, h.1.2, ih h.2 (by omega)]

/-! ## The operations the machine uses -/

theorem Memory.addr_lt (addr : Addr) : addr.toNat < Config.memSize := addr.isLt

/-- The byte written is the byte read back. -/
theorem Memory.read_write_self {m : Memory} (h : m.wf = true) (addr : Addr) (v : Byte) :
    (m.write addr v).read addr = v := Memory.readAt_writeAt_self h

/-- A write leaves every other address alone. -/
theorem Memory.read_write_other (m : Memory) {addr addr' : Addr} (v : Byte) (hne : addr' ≠ addr) :
    (m.write addr v).read addr' = m.read addr' :=
  Memory.readAt_writeAt_other (fun e => hne (BitVec.eq_of_toNat_eq e))

/-- A write keeps the canonical form. -/
theorem Memory.wf_write {m : Memory} (h : m.wf = true) (addr : Addr) (v : Byte) : (m.write addr v).wf = true :=
  Memory.wfFrom_writeAt h (Nat.zero_le _) (Memory.addr_lt addr)

@[simp] theorem Memory.wf_zeroed : Memory.zeroed.wf = true := rfl
@[simp] theorem Memory.read_zeroed (addr : Addr) : Memory.zeroed.read addr = 0x00#8 := rfl

/-- One write, by address. -/
theorem Memory.read_write {m : Memory} (h : m.wf = true) (addr addr' : Addr) (v : Byte) :
    (m.write addr v).read addr' = if addr' = addr then v else m.read addr' := by
  split
  · rename_i e; subst e; exact Memory.read_write_self h _ _
  · rename_i hne; exact Memory.read_write_other m v hne

end Sys2Proof.Machine
end

