-- ==== Sys2Proof/Laws/State.lean ====
section
/-! SUPPORT. What each update of State leaves in each field. -/
namespace Sys2Proof.Machine

/-! ## State.advancePc -/

@[simp] theorem State.advancePc_cpu (s : State) : s.advancePc.cpu = { s.cpu with pc := s.cpu.pc + 1#16 } := rfl
@[simp] theorem State.advancePc_mem (s : State) : s.advancePc.mem = s.mem := rfl
@[simp] theorem State.advancePc_resetDone (s : State) : s.advancePc.resetDone = s.resetDone := rfl
@[simp] theorem State.advancePc_call (s : State) : s.advancePc.call = s.call := rfl
@[simp] theorem State.advancePc_host (s : State) : s.advancePc.host = s.host := rfl
@[simp] theorem State.advancePc_trace (s : State) : s.advancePc.trace = s.trace := rfl

/-! ## State.charge -/

@[simp] theorem State.charge_cpu (s : State) : s.charge.cpu = s.cpu := by unfold State.charge; split <;> rfl
@[simp] theorem State.charge_mem (s : State) : s.charge.mem = s.mem := by unfold State.charge; split <;> rfl
@[simp] theorem State.charge_resetDone (s : State) : s.charge.resetDone = s.resetDone := by unfold State.charge; split <;> rfl
@[simp] theorem State.charge_host (s : State) : s.charge.host = s.host := by unfold State.charge; split <;> rfl
@[simp] theorem State.charge_trace (s : State) : s.charge.trace = s.trace := by unfold State.charge; split <;> rfl

/-! ## State.consumeByte -/

@[simp] theorem State.consumeByte_cpu (s : State) : s.consumeByte.cpu = { s.cpu with pc := s.cpu.pc + 1#16 } := by simp [State.consumeByte, State.fetch]
@[simp] theorem State.consumeByte_mem (s : State) : s.consumeByte.mem = s.mem := by simp [State.consumeByte, State.fetch]
@[simp] theorem State.consumeByte_resetDone (s : State) : s.consumeByte.resetDone = s.resetDone := by simp [State.consumeByte, State.fetch]
@[simp] theorem State.consumeByte_call (s : State) : s.consumeByte.call = s.charge.call := by cases h : s.call <;> simp [State.consumeByte, State.fetch, State.charge, h]
@[simp] theorem State.consumeByte_host (s : State) : s.consumeByte.host = s.host := by simp [State.consumeByte, State.fetch]
@[simp] theorem State.consumeByte_trace (s : State) : s.consumeByte.trace = s.trace := by simp [State.consumeByte, State.fetch]

/-! ## State.emit -/

@[simp] theorem State.emit_cpu (e : TraceEvent) (s : State) : (s.emit e).cpu = s.cpu := rfl
@[simp] theorem State.emit_mem (e : TraceEvent) (s : State) : (s.emit e).mem = s.mem := rfl
@[simp] theorem State.emit_resetDone (e : TraceEvent) (s : State) : (s.emit e).resetDone = s.resetDone := rfl
@[simp] theorem State.emit_call (e : TraceEvent) (s : State) : (s.emit e).call = s.call := rfl
@[simp] theorem State.emit_host (e : TraceEvent) (s : State) : (s.emit e).host = s.host := rfl
@[simp] theorem State.emit_trace (e : TraceEvent) (s : State) : (s.emit e).trace = s.trace.map (fun events => events ++ [e]) := rfl

/-! ## State.returnStatus -/

@[simp] theorem State.returnStatus_cpu (st : Status) (s : State) : (s.returnStatus st).cpu = s.cpu := rfl
@[simp] theorem State.returnStatus_mem (st : Status) (s : State) : (s.returnStatus st).mem = s.mem := rfl
@[simp] theorem State.returnStatus_resetDone (st : Status) (s : State) : (s.returnStatus st).resetDone = s.resetDone := rfl
@[simp] theorem State.returnStatus_call (st : Status) (s : State) : (s.returnStatus st).call = .returned st s.budget := rfl
@[simp] theorem State.returnStatus_host (st : Status) (s : State) : (s.returnStatus st).host = s.host := rfl
@[simp] theorem State.returnStatus_trace (st : Status) (s : State) : (s.returnStatus st).trace = s.trace := rfl

/-! ## loadA -/

@[simp] theorem loadA_cpu (v : Byte) (s : State) : (loadA v s).cpu = setLoadFlags v { s.cpu with a := v } := rfl
@[simp] theorem loadA_mem (v : Byte) (s : State) : (loadA v s).mem = s.mem := rfl
@[simp] theorem loadA_resetDone (v : Byte) (s : State) : (loadA v s).resetDone = s.resetDone := rfl
@[simp] theorem loadA_call (v : Byte) (s : State) : (loadA v s).call = s.call := rfl
@[simp] theorem loadA_host (v : Byte) (s : State) : (loadA v s).host = s.host := rfl
@[simp] theorem loadA_trace (v : Byte) (s : State) : (loadA v s).trace = s.trace.map (fun events => events ++ [.executed (setLoadFlags v { s.cpu with a := v })]) := rfl

/-! ## State.memoryNew -/

@[simp] theorem State.memoryNew_cpu (s : State) : s.memoryNew.cpu = s.cpu := rfl
@[simp] theorem State.memoryNew_mem (s : State) : s.memoryNew.mem = Memory.zeroed := rfl
@[simp] theorem State.memoryNew_resetDone (s : State) : s.memoryNew.resetDone = s.resetDone := rfl
@[simp] theorem State.memoryNew_call (s : State) : s.memoryNew.call = s.call := rfl
@[simp] theorem State.memoryNew_host (s : State) : s.memoryNew.host = s.host := rfl
@[simp] theorem State.memoryNew_trace (s : State) : s.memoryNew.trace = s.trace := rfl

/-! ## State.cpuNew -/

@[simp] theorem State.cpuNew_cpu (s : State) : s.cpuNew.cpu = Cpu.new := rfl
@[simp] theorem State.cpuNew_mem (s : State) : s.cpuNew.mem = s.mem := rfl
@[simp] theorem State.cpuNew_resetDone (s : State) : s.cpuNew.resetDone = false := rfl
@[simp] theorem State.cpuNew_call (s : State) : s.cpuNew.call = .idle := rfl
@[simp] theorem State.cpuNew_host (s : State) : s.cpuNew.host = s.host := rfl
@[simp] theorem State.cpuNew_trace (s : State) : s.cpuNew.trace = s.trace := rfl

/-! ## State.memoryReset -/

@[simp] theorem State.memoryReset_cpu (s : State) : s.memoryReset.cpu = s.cpu := rfl
@[simp] theorem State.memoryReset_mem (s : State) : s.memoryReset.mem = Memory.zeroed := rfl
@[simp] theorem State.memoryReset_resetDone (s : State) : s.memoryReset.resetDone = s.resetDone := rfl
@[simp] theorem State.memoryReset_call (s : State) : s.memoryReset.call = s.call := rfl
@[simp] theorem State.memoryReset_host (s : State) : s.memoryReset.host = s.host := rfl
@[simp] theorem State.memoryReset_trace (s : State) : s.memoryReset.trace = s.trace := rfl

/-! ## State.cpuReset -/

@[simp] theorem State.cpuReset_cpu (s : State) : s.cpuReset.cpu = Cpu.afterReset := rfl
@[simp] theorem State.cpuReset_mem (s : State) : s.cpuReset.mem = Memory.zeroed := rfl
@[simp] theorem State.cpuReset_resetDone (s : State) : s.cpuReset.resetDone = true := rfl
@[simp] theorem State.cpuReset_call (s : State) : s.cpuReset.call = .idle := rfl
@[simp] theorem State.cpuReset_host (s : State) : s.cpuReset.host = s.host := rfl
@[simp] theorem State.cpuReset_trace (s : State) : s.cpuReset.trace = s.trace := rfl

/-! ## State.hostWrite -/

@[simp] theorem State.hostWrite_cpu (addr : Addr) (v : Byte) (s : State) : (s.hostWrite addr v).cpu = s.cpu := rfl
@[simp] theorem State.hostWrite_mem (addr : Addr) (v : Byte) (s : State) : (s.hostWrite addr v).mem = s.mem.write addr v := rfl
@[simp] theorem State.hostWrite_resetDone (addr : Addr) (v : Byte) (s : State) : (s.hostWrite addr v).resetDone = s.resetDone := rfl
@[simp] theorem State.hostWrite_call (addr : Addr) (v : Byte) (s : State) : (s.hostWrite addr v).call = s.call := rfl
@[simp] theorem State.hostWrite_host (addr : Addr) (v : Byte) (s : State) : (s.hostWrite addr v).host = s.host := rfl
@[simp] theorem State.hostWrite_trace (addr : Addr) (v : Byte) (s : State) : (s.hostWrite addr v).trace = s.trace := rfl

/-! ## The budget -/

theorem State.charge_running {s : State} {b : Nat} (h : s.call = .running b) :
    s.charge.call = .running (b - 1) := by simp [State.charge, h]

theorem State.budget_running {s : State} {b : Nat} (h : s.call = .running b) : s.budget = b := by
  simp [State.budget, h]

@[simp] theorem State.budget_emit (e : TraceEvent) (s : State) : (s.emit e).budget = s.budget := rfl

/-- What two charged fetches leave: PC two further, two cycles gone. -/
theorem State.consume_two {s : State} {b : Nat} (h : s.call = .running b) :
    s.consumeByte.consumeByte = { s with cpu := { s.cpu with pc := s.cpu.pc + 2#16 }, call := .running (b - 2) } := by
  have hpc : s.cpu.pc + 1#16 + 1#16 = s.cpu.pc + 2#16 := by bv_omega
  have hb : b - 1 - 1 = b - 2 := by omega
  simp [State.consumeByte, State.fetch, State.advancePc, State.charge, h, hpc, hb]

/-- What one charged fetch leaves: PC one further, one cycle gone. -/
theorem State.consume_one {s : State} {b : Nat} (h : s.call = .running b) :
    s.consumeByte = { s with cpu := { s.cpu with pc := s.cpu.pc + 1#16 }, call := .running (b - 1) } := by
  simp [State.consumeByte, State.fetch, State.advancePc, State.charge, h]

/-! ## The views of Safety -/

@[simp] theorem State.untraced_cpu (s : State) : s.untraced.cpu = s.cpu := rfl
@[simp] theorem State.untraced_mem (s : State) : s.untraced.mem = s.mem := rfl
@[simp] theorem State.untraced_resetDone (s : State) : s.untraced.resetDone = s.resetDone := rfl
@[simp] theorem State.untraced_call (s : State) : s.untraced.call = s.call := rfl
@[simp] theorem State.untraced_host (s : State) : s.untraced.host = s.host := rfl
@[simp] theorem State.untraced_trace (s : State) : s.untraced.trace = none := rfl

@[simp] theorem mapNext_next (f : State → State) (s : State) : mapNext f (.next s) = .next (f s) := rfl
@[simp] theorem mapNext_refused (f : State → State) (e : Refusal) : mapNext f (.refused e) = .refused e := rfl
@[simp] theorem nextState_next (s : State) : nextState (.next s) = some s := rfl
@[simp] theorem nextState_refused (e : Refusal) : nextState (.refused e) = none := rfl

end Sys2Proof.Machine
end

