-- ==== Sys2Proof/Laws/Ops.lean ====
section
/-! SUPPORT. Everything the shared operations can answer, said once. -/
namespace Sys2Proof.Machine

/-! ## beginInstr -/

/-- An instruction the budget covers is begun. -/
theorem beginInstr_admitted {op : Byte} {k : State → Result} {s : State} {b : Nat}
    (h : s.call = .running b) (hc : costOf op ≤ b) : beginInstr op k s = k s := by
  have h₀ : ¬b = 0 := by have := costOf_pos op; omega
  simp [beginInstr, h, h₀, Nat.not_lt.mpr hc]

/-- What `beginInstr` can answer: outside a call nothing happens; inside it the call returns for want of budget, or the instruction is
begun with a budget that covers its cost. -/
theorem beginInstr_cases (op : Byte) (k : State → Result) (s : State) :
    ((∀ b, s.call ≠ .running b) ∧ beginInstr op k s = .next s) ∨
    (s.call = .running 0 ∧ beginInstr op k s = .next (s.returnStatus .budgetExhausted)) ∨
    (∃ b, s.call = .running b ∧ 0 < b ∧ b < costOf op ∧
      beginInstr op k s = .next (s.returnStatus (.insufficientBudget op s.cpu.pc))) ∨
    (∃ b, s.call = .running b ∧ costOf op ≤ b ∧ beginInstr op k s = k s) := by
  cases h : s.call with
  | idle => exact .inl ⟨by simp, by simp [beginInstr, h]⟩
  | returned st r => exact .inl ⟨by simp, by simp [beginInstr, h]⟩
  | running b =>
    by_cases h₀ : b = 0
    · subst h₀; exact .inr (.inl ⟨rfl, by simp [beginInstr, h]⟩)
    · by_cases hc : b < costOf op
      · exact .inr (.inr (.inl ⟨b, rfl, by omega, hc, by simp [beginInstr, h, h₀, hc]⟩))
      · exact .inr (.inr (.inr ⟨b, rfl, by omega, by simp [beginInstr, h, h₀, hc]⟩))

/-! ## The control port -/

/-- A call is refused only before the first reset; else it starts with its budget. -/
theorem startExecute_cases (budget : BitVec Config.budgetBits) (s : State) :
    (s.resetDone = true ∧ startExecute budget s = .next { s with call := .running budget.toNat }) ∨
    (s.resetDone = false ∧ startExecute budget s = .refused .notReset) := by
  cases h : s.resetDone <;> simp [startExecute, h]

/-- Between calls, with nothing pending, the machine stays as it is. -/
theorem hostAct_nil {s : State} (h : s.host = []) : hostAct s = .next s := by simp [hostAct, h]

/-- Between calls the host's next command is taken off the list and run. -/
theorem hostAct_cons {s : State} {command : HostCommand} {rest : List HostCommand} (h : s.host = command :: rest) :
    hostAct s = runCommand command { s with host := rest } := by simp [hostAct, h]

/-! ## step -/

theorem step_running {s : State} {b : Nat} (h : s.call = .running b) : step s = exec s.instrAtPc s := by
  simp [step, h]

theorem step_between {s : State} (h : ∀ b, s.call ≠ .running b) : step s = hostAct s := by
  cases hc : s.call with
  | idle => simp [step, hc]
  | returned st r => simp [step, hc]
  | running b => exact absurd hc (h b)

/-- Either a call is in progress or none is. -/
theorem call_running_or_between (s : State) : (∃ b, s.call = .running b) ∨ (∀ b, s.call ≠ .running b) := by
  cases h : s.call <;> simp

/-- Between calls, a step runs the host's next command. -/
theorem step_command {s : State} {command : HostCommand} {rest : List HostCommand} (hn : ∀ b, s.call ≠ .running b)
    (hh : s.host = command :: rest) : step s = runCommand command { s with host := rest } := by
  rw [step_between hn, hostAct_cons hh]

/-! ## Runs -/

/-- A run of `k + 1` steps is one step and a run of `k`. -/
theorem core_run_succ (k : Nat) {s t : State} (h : step s = .next t) : core.run (k + 1) s = core.run k t := by
  have h' : core.step s = .next t := h
  simp only [Host.Core.run, h']

theorem core_run_one {s t : State} (h : step s = .next t) : core.run 1 s = .next t := core_run_succ 0 h

end Sys2Proof.Machine
end

