-- ==== Sys2Proof/Laws/PerInstr.lean ====
section
/-! SUPPORT. Statements made of every instruction, one lemma per constructor. -/

/-- The shape of an encoding (R56 to R59): its first byte is the opcode, and its length is the one the opcode byte alone fixes. -/
def Sys2Proof.Laws.EncodeShape.Statement (i : Sys2Proof.Instr) : Prop :=
  i.wellFormed = true →
    (Sys2Proof.encode i).head? = some i.opcode ∧ (Sys2Proof.encode i).length = Sys2Proof.lengthOf i.opcode

theorem Sys2Proof.Laws.EncodeShape.ldaImm (imm8 : Sys2Proof.Byte) :
    Sys2Proof.Laws.EncodeShape.Statement (.ldaImm imm8) := fun _ => ⟨rfl, rfl⟩

theorem Sys2Proof.Laws.EncodeShape.ldaZp (zp8 : Sys2Proof.Byte) :
    Sys2Proof.Laws.EncodeShape.Statement (.ldaZp zp8) := fun _ => ⟨rfl, rfl⟩

theorem Sys2Proof.Laws.EncodeShape.unrecognized (op : Sys2Proof.Byte) :
    Sys2Proof.Laws.EncodeShape.Statement (.unrecognized op) :=
  fun h => ⟨rfl, (Sys2Proof.lengthOf_other h).symm⟩
end

