-- ==== Sys2Proof/Tests/Slice0.lean ====
section
/-! SUPPORT. Tests with expected results from spec/ (95_test_vectors.md where a W or V number is given), and for every statement with hypotheses a state that meets them. -/
namespace Sys2Proof.Tests

open Sys2Proof Sys2Proof.Machine

/-- The machine after reset with some bytes loaded and a call in progress. -/
def loaded (cells : Memory) (budget : Nat) : State := { State.reset with mem := cells, call := .running budget }

/-- The machine after reset, between calls, with commands pending. -/
def pending (commands : List HostCommand) : State := { State.reset with host := commands }

/-- A, Z, N, PC and the call after an outcome. -/
def seen (r : Result) : Option (Byte × Bool × Bool × Addr × Call) :=
  (nextState r).map (fun s => (s.cpu.a, s.cpu.z, s.cpu.n, s.cpu.pc, s.call))

/-! ## WellFormed: each check refuses an ill-formed term -/

theorem test_wellFormed_refuses_A9 : (Instr.unrecognized 0xA9#8).wellFormed = false := by decide
theorem test_wellFormed_refuses_A5 : (Instr.unrecognized 0xA5#8).wellFormed = false := by decide
theorem test_wellFormed_takes_others :
    (Instr.unrecognized 0xA4#8).wellFormed = true ∧ (Instr.unrecognized 0xAA#8).wellFormed = true ∧
    (Instr.ldaImm 0xA9#8).wellFormed = true ∧ (Instr.ldaZp 0xA5#8).wellFormed = true := by decide

/-! ## Decode: words written out bit by bit from R57, R58, R59 -/

theorem test_decode_ldaImm : decode [0b10101001#8, 0b11110000#8, 0x33#8] = .instr (.ldaImm 0xF0#8) [0x33#8] := by decide
theorem test_decode_ldaZp : decode [0b10100101#8, 0b00001111#8, 0x33#8] = .instr (.ldaZp 0x0F#8) [0x33#8] := by decide
theorem test_decode_unrecognized : decode [0b10101101#8, 0x34#8, 0x12#8] = .instr (.unrecognized 0xAD#8) [0x34#8, 0x12#8] := by decide
theorem test_decode_neighbours :
    decode [0b10101000#8] = .instr (.unrecognized 0xA8#8) [] ∧ decode [0b10100100#8] = .instr (.unrecognized 0xA4#8) [] := by decide
theorem test_decode_rejects_by_name :
    decode [] = .rejected .noOpcode ∧ decode [0xA9#8] = .rejected (.noOperand 0xA9#8) ∧
    decode [0xA5#8] = .rejected (.noOperand 0xA5#8) := by decide
theorem test_encode_bytes :
    encode (.ldaImm 0x42#8) = [0xA9#8, 0x42#8] ∧ encode (.ldaZp 0x10#8) = [0xA5#8, 0x10#8] ∧
    encode (.unrecognized 0xFF#8) = [0xFF#8] := by decide
/-- The byte order of a table word is the model's (DESIGN CHOICE, log 16), so this checks the convention, not the spec. -/
theorem test_tableWord_is_low_byte_first : decodeTableWord 16 0x42A9 = some (.ldaImm 0x42#8) := by decide

/-! ## Fetch, flags, memory -/

/-- V1. -/
theorem test_fetch_V1 :
    (fun s : State => (s.fetch.1, s.fetch.2.cpu.pc)) { State.reset with mem := [(0x1234, 0x5A#8)], cpu := { Cpu.afterReset with pc := 0x1234#16 } }
      = (0x5A#8, 0x1235#16) := by decide
/-- V2: the wrap. -/
theorem test_fetch_V2 :
    (fun s : State => (s.fetch.1, s.fetch.2.cpu.pc)) { State.reset with mem := [(0xFFFF, 0x77#8)], cpu := { Cpu.afterReset with pc := 0xFFFF#16 } }
      = (0x77#8, 0x0000#16) := by decide
/-- V4 to V9. -/
theorem test_setLoadFlags_V4_to_V9 :
    [0x00#8, 0x01#8, 0x7F#8, 0x80#8, 0x81#8, 0xFF#8].map
        (fun r => ((setLoadFlags r Cpu.afterReset).z, (setLoadFlags r Cpu.afterReset).n))
      = [(true, false), (false, false), (false, false), (false, true), (false, true), (false, true)] := by decide
theorem test_write_keeps_order_and_drops_zero :
    (((Memory.zeroed.write 0x0200#16 0x02#8).write 0x0100#16 0x01#8).write 0x0200#16 0x00#8) = [(0x0100, 0x01#8)] := by decide
theorem test_wf_refuses_each_defect :
    Memory.wf [(5, 0x01#8), (5, 0x02#8)] = false ∧ Memory.wf [(5, 0x00#8)] = false ∧ Memory.wf [(65536, 0x01#8)] = false := by decide

/-! ## Instructions, one step each -/

/-- W4. -/
theorem test_ldaImm_W4 :
    seen (step (loaded [(0xFFFC, 0xA9#8), (0xFFFD, 0x80#8)] 2)) = some (0x80#8, false, true, 0xFFFE#16, .running 0) := by decide
/-- V12, second call: the opcode at 0xFFFF, the operand from 0x0000. -/
theorem test_ldaImm_wraps_V12 :
    seen (step { loaded [(0x0000, 0x80#8), (0xFFFF, 0xA9#8)] 2 with cpu := { Cpu.afterReset with pc := 0xFFFF#16, a := 0x11#8 } })
      = some (0x80#8, false, true, 0x0001#16, .running 0) := by decide
/-- V16: no index, page 1 not read, PC not moved by the data read. -/
theorem test_ldaZp_V16 :
    seen (step (loaded [(0x0010, 0x37#8), (0x0110, 0x99#8), (0xFFFC, 0xA5#8), (0xFFFD, 0x10#8)] 3))
      = some (0x37#8, false, false, 0xFFFE#16, .running 0) := by decide
/-- R89, corner case: at 0x0000 the bytes A5 00 load their own opcode. -/
theorem test_ldaZp_loads_its_own_opcode :
    seen (step { loaded [(0x0000, 0xA5#8)] 3 with cpu := { Cpu.afterReset with pc := 0x0000#16 } })
      = some (0xA5#8, false, true, 0x0002#16, .running 0) := by decide
/-- V19. -/
theorem test_unrecognized_V19 :
    seen (step (loaded [(0xFFFC, 0xAD#8), (0xFFFD, 0x34#8), (0xFFFE, 0x12#8)] 1000))
      = some (0x00#8, false, false, 0xFFFD#16, .returned (.unknownOpcode 0xAD#8 0xFFFC#16) 999) := by decide
/-- V18: cleared memory halts at once, with a budget of 1. -/
theorem test_unrecognized_V18 :
    seen (step (loaded [] 1)) = some (0x00#8, false, false, 0xFFFD#16, .returned (.unknownOpcode 0x00#8 0xFFFC#16) 0) := by decide

/-! ## The budget -/

/-- V21. -/
theorem test_budget_zero_V21 :
    seen (step (loaded [(0xFFFC, 0xA9#8), (0xFFFD, 0x42#8)] 0))
      = some (0x00#8, false, false, 0xFFFC#16, .returned .budgetExhausted 0) := by decide
/-- V23. -/
theorem test_budget_insufficient_V23 :
    seen (step (loaded [(0xFFFC, 0xA5#8), (0xFFFD, 0x10#8)] 2))
      = some (0x00#8, false, false, 0xFFFC#16, .returned (.insufficientBudget 0xA5#8 0xFFFC#16) 2) := by decide

/-! ## The control port and the trace port -/

/-- V27. -/
theorem test_cpuReset_V27 :
    (nextState (step { pending [.cpuReset] with
        cpu := { Cpu.afterReset with a := 0x80#8, n := true, pc := 0x0001#16 }, mem := [(0x1234, 0x56#8)] })) = some State.reset := by decide
/-- V28. -/
theorem test_memoryReset_V28 :
    (nextState (step { pending [.memoryReset] with mem := [(0xFFFC, 0xA9#8), (0xFFFD, 0x42#8)] })) = some State.reset := by decide
/-- V26: `execute` on a CPU that was never reset. -/
theorem test_execute_before_reset_V26 : step { State.new with host := [.execute 5#32] } = .refused .notReset := rfl
/-- R71: the largest budget. -/
theorem test_execute_starts :
    (nextState (step (pending [.execute 0xFFFFFFFF#32]))).map (fun s => (s.call, s.host)) = some (.running 4294967295, []) := by decide
/-- R10, R46. -/
theorem test_host_write :
    (nextState (step (pending [.write 0xFFFC#16 0xA9#8]))).map (fun s => s.mem) = some [(0xFFFC, 0xA9#8)] := by decide
/-- R37: `CPU::new()` leaves memory alone. -/
theorem test_cpuNew :
    (nextState (step { pending [.cpuNew] with mem := [(7, 0x07#8)] })) = some { State.new with mem := [(7, 0x07#8)] } := by decide
/-- R101: a load hands the hook one event with the registers after it. -/
theorem test_trace_executed :
    (nextState (step (loaded [(0xFFFC, 0xA9#8), (0xFFFD, 0x42#8)] 2))).map (fun s => s.trace)
      = some (some [.executed { Cpu.afterReset with a := 0x42#8, pc := 0xFFFE#16 }]) := by decide
/-- R101: a miss hands the hook the opcode and its address. -/
theorem test_trace_miss :
    (nextState (step (loaded [] 1))).map (fun s => s.trace) = some (some [.miss 0x00#8 0xFFFC#16]) := by decide

/-! ## The first instruction after reset, one for each table row, the words laid out as in log 13 and log 16 -/

theorem test_first_ldaImm : seen (step (State.reset.withFetchWord 16 0x42A9)) = some (0x42#8, false, false, 0xFFFE#16, .running 0) := by decide
theorem test_first_ldaZp : seen (step (State.reset.withFetchWord 8 0xA5)) = some (0x00#8, true, false, 0xFFFE#16, .running 0) := by decide
theorem test_first_unrecognized :
    seen (step (State.reset.withFetchWord 8 0xFF))
      = some (0x00#8, false, false, 0xFFFD#16, .returned (.unknownOpcode 0xFF#8 0xFFFC#16) 0) := by decide

/-! ## Witnesses: states that meet the hypotheses of each statement -/

theorem pending_between (commands : List HostCommand) : ∀ b, (pending commands).call ≠ .running b := by
  intro b h; cases h

theorem witness_DecodeOfEncodeIsIdentity :
    (Instr.ldaImm 0xFF#8).wellFormed = true ∧ (Instr.ldaZp 0x00#8).wellFormed = true ∧ (Instr.unrecognized 0xAA#8).wellFormed = true := by
  decide
theorem witness_EncodeOfDecodeIsIdentity : decode [0xA5#8, 0xFF#8] = .instr (.ldaZp 0xFF#8) [] := by decide
theorem witness_StepRunsTheDecodedInstruction :
    (loaded [(0xFFFC, 0xA9#8)] 2).call = .running 2 ∧
    decode [(loaded [(0xFFFC, 0xA9#8)] 2).mem.read 0xFFFC#16, (loaded [(0xFFFC, 0xA9#8)] 2).mem.read 0xFFFD#16] = .instr (.ldaImm 0x00#8) [] ∧
    (Instr.ldaImm 0x00#8).wellFormed = true := by decide
theorem witness_WordPlacedForFetchIsRun : State.reset.mem.wf = true ∧ decodeTableWord 16 0xFFA5 = some (.ldaZp 0xFF#8) := by decide
theorem witness_BudgetOfZeroReturnsBudgetExhausted :
    (loaded [] 0).call = .running 0 ∧
    ((∀ b, (pending [.execute 0#32]).call ≠ .running b) ∧ (pending [.execute 0#32]).resetDone = true ∧
      (pending [.execute 0#32]).host = .execute 0#32 :: []) := ⟨rfl, pending_between _, rfl, rfl⟩
theorem witness_OverBudgetInstructionIsNotBegun_load :
    (loaded [(0xFFFC, 0xA9#8)] 1).call = .running 1 ∧ 0 < 1 ∧ 1 < costOf ((loaded [(0xFFFC, 0xA9#8)] 1).mem.read 0xFFFC#16) ∧
    (loaded [(0xFFFC, 0xA5#8)] 2).call = .running 2 ∧ 2 < costOf ((loaded [(0xFFFC, 0xA5#8)] 2).mem.read 0xFFFC#16) := by decide
theorem witness_OverBudgetInstructionIsNotBegun_unrecognized :
    (loaded [] 1).call = .running 1 ∧ (loaded [] 1).mem.read 0xFFFC#16 ≠ 0xA9#8 ∧ (loaded [] 1).mem.read 0xFFFC#16 ≠ 0xA5#8 := by decide
theorem witness_CompletedInstructionsLowerTheBudgetByTheirCost :
    (loaded [(0xFFFC, 0xA9#8)] 2).call = .running 2 ∧
    (nextState (step (loaded [(0xFFFC, 0xA9#8)] 2))).map (fun s => s.call) = some (.running 0) ∧
    (nextState (step (loaded [] 1))).map (fun s => s.call) = some (.returned (.unknownOpcode 0x00#8 0xFFFC#16) 0) ∧
    (nextState (step (loaded [(0xFFFC, 0xA9#8)] 1))).map (fun s => s.call) = some (.returned (.insufficientBudget 0xA9#8 0xFFFC#16) 1) := by
  decide
theorem witness_EventsAreCheckedInOrder :
    (loaded [] 0).call = .running 0 ∧
    (0 < 2 ∧ 2 < costOf ((loaded [(0xFFFC, 0xA5#8)] 2).mem.read 0xFFFC#16)) ∧
    (costOf ((loaded [] 1).mem.read 0xFFFC#16) ≤ 1 ∧ (loaded [] 1).mem.read 0xFFFC#16 ≠ 0xA9#8 ∧ (loaded [] 1).mem.read 0xFFFC#16 ≠ 0xA5#8) ∧
    (costOf ((loaded [(0xFFFC, 0xA5#8)] 3).mem.read 0xFFFC#16) ≤ 3 ∧ (loaded [(0xFFFC, 0xA5#8)] 3).mem.read 0xFFFC#16 = 0xA5#8) := by decide
theorem witness_HaltChangesNothingElse :
    (∃ t, step (loaded [] 1) = .next t ∧ t.call = .returned (.unknownOpcode 0x00#8 0xFFFC#16) 0) ∧
    (∃ t, step (loaded [(0xFFFC, 0xA5#8)] 2) = .next t ∧ t.call = .returned (.insufficientBudget 0xA5#8 0xFFFC#16) 2) ∧
    (∃ t, step (loaded [] 0) = .next t ∧ t.call = .returned .budgetExhausted 0) :=
  ⟨⟨_, rfl, rfl⟩, ⟨_, rfl, rfl⟩, ⟨_, rfl, rfl⟩⟩
theorem witness_EveryCallReturns : (loaded [(0xFFFC, 0xA9#8)] 5).call = .running 5 := by decide
theorem witness_StepRefinesThePseudocode : (loaded [(0xFFFC, 0xA5#8)] 3).call = .running 3 := by decide
theorem witness_ExecuteCallRefinesThePseudocode :
    (∀ b, (pending [.execute 3#32]).call ≠ .running b) ∧ (pending [.execute 3#32]).host = .execute 3#32 :: [] ∧
    (pending [.execute 3#32]).resetDone = true ∧
    ({ State.new with host := [.execute 3#32] } : State).resetDone = false := ⟨pending_between _, rfl, rfl, rfl⟩
theorem witness_LdaImmediateLoadsItsOperand : (loaded [] 2).call = .running 2 ∧ 2 ≤ 2 := by decide
theorem witness_LdaZeroPageLoadsTheByteItNames : (loaded [] 3).call = .running 3 ∧ 3 ≤ 3 := by decide
theorem witness_UnrecognizedOpcodeEndsTheCall :
    (loaded [] 1).call = .running 1 ∧ 1 ≤ 1 ∧ 0xA8#8 ≠ 0xA9#8 ∧ 0xA8#8 ≠ 0xA5#8 := by decide
theorem witness_InstructionsRunOnlyInsideACall : ∀ b, (pending []).call ≠ .running b := pending_between _
theorem witness_LoadsSetZAndNFromTheLoadedByte :
    (loaded [] 2).call = .running 2 ∧ costOf (Instr.ldaImm 0x80#8).opcode ≤ 2 ∧
    (loaded [] 3).call = .running 3 ∧ costOf (Instr.ldaZp 0xFF#8).opcode ≤ 3 := by decide
theorem witness_InstructionsLeaveAllElseUnchanged :
    (∃ t, exec (.ldaImm 0x01#8) (loaded [] 2) = .next t) ∧ (∃ t, exec (.ldaZp 0x01#8) (loaded [] 3) = .next t) ∧
    (∃ t, exec (.unrecognized 0x01#8) (loaded [] 1) = .next t) := ⟨⟨_, rfl⟩, ⟨_, rfl⟩, ⟨_, rfl⟩⟩
theorem witness_OnlyTheHostAndTheResetsWriteMemory :
    ∃ t, step (pending [.write 0xFFFF#16 0x01#8]) = .next t ∧ ∃ addr, t.mem.read addr ≠ (pending [.write 0xFFFF#16 0x01#8]).mem.read addr :=
  ⟨_, rfl, 0xFFFF#16, by decide⟩
theorem witness_PcMovesByTheLengthOfTheInstruction_inside :
    ∃ t, step (loaded [(0xFFFC, 0xA9#8)] 2) = .next t ∧ t.call = .running 0 := ⟨_, rfl, rfl⟩
theorem witness_PcMovesByTheLengthOfTheInstruction_between :
    ∃ t, step (pending [.cpuNew]) = .next t ∧ t.cpu.pc ≠ (pending [.cpuNew]).cpu.pc ∧ ∀ b, (pending [.cpuNew]).call ≠ .running b :=
  ⟨_, rfl, by decide, pending_between _⟩
theorem witness_ExecuteStartsACallWithItsBudget :
    (∀ b, (pending [.execute 7#32]).call ≠ .running b) ∧ (pending [.execute 7#32]).resetDone = true ∧
    (pending [.execute 7#32]).host = .execute 7#32 :: [] := ⟨pending_between _, rfl, rfl⟩
theorem witness_OnlyExecuteBeforeResetIsRefused : step { State.new with host := [.execute 0#32] } = .refused .notReset := rfl
theorem witness_OverBudgetInstructionRunsInALaterCall :
    ({ loaded [(0xFFFC, 0xA9#8)] 1 with host := [.execute 2#32] } : State).call = .running 1 ∧ 0 < 1 ∧
    1 < costOf ((loaded [(0xFFFC, 0xA9#8)] 1).mem.read 0xFFFC#16) ∧ (loaded [(0xFFFC, 0xA9#8)] 1).resetDone = true ∧
    costOf ((loaded [(0xFFFC, 0xA9#8)] 1).mem.read 0xFFFC#16) ≤ (2#32).toNat := by decide
theorem witness_CpuResetSetsEveryRegisterAndClearsMemory :
    (∀ b, (pending [.cpuReset]).call ≠ .running b) ∧ (pending [.cpuReset]).host = .cpuReset :: [] := ⟨pending_between _, rfl⟩
theorem witness_ResetIsIdempotentAndForgetsThePast :
    ((∀ b, (pending [.cpuReset]).call ≠ .running b) ∧ (∀ b, ({ State.new with host := [.cpuReset] } : State).call ≠ .running b) ∧
      (pending [.cpuReset]).host = .cpuReset :: [] ∧ ({ State.new with host := [.cpuReset] } : State).host = .cpuReset :: [] ∧
      (pending [.cpuReset]).trace = ({ State.new with host := [.cpuReset] } : State).trace) ∧
    (pending [.cpuReset, .cpuReset]).host = .cpuReset :: .cpuReset :: [] :=
  ⟨⟨pending_between _, (by intro b h; cases h), rfl, rfl, rfl⟩, rfl⟩
theorem witness_ClearingLoopGivesTheZeroedMemory : Memory.wf [(0x0000, 0x01#8), (0xFFFF, 0xFF#8)] = true := by decide
theorem witness_MemoryResetAndNewMemoryAreZeroFilled :
    (∀ b, (pending [.memoryNew]).call ≠ .running b) ∧ (pending [.memoryNew]).host = .memoryNew :: [] ∧
    (pending [.memoryReset]).host = .memoryReset :: [] := ⟨pending_between _, rfl, rfl⟩
theorem witness_CpuNewIsAllZeroAndNotReset :
    (∀ b, (pending [.cpuNew]).call ≠ .running b) ∧ (pending [.cpuNew]).host = .cpuNew :: [] := ⟨pending_between _, rfl⟩
theorem witness_BetweenCallsTheCoreDoesNothing : (∀ b, (pending []).call ≠ .running b) ∧ (pending []).host = [] := ⟨pending_between _, rfl⟩
theorem witness_HostWriteChangesExactlyOneByte :
    (pending [.write 0x0000#16 0xFF#8]).mem.wf = true ∧ (∀ b, (pending [.write 0x0000#16 0xFF#8]).call ≠ .running b) ∧
    (pending [.write 0x0000#16 0xFF#8]).host = .write 0x0000#16 0xFF#8 :: [] := ⟨rfl, pending_between _, rfl⟩
theorem witness_ReadsReturnTheLastHostWrite :
    (pending [.write 5#16 1#8, .write 5#16 0#8]).mem.wf = true ∧ (∀ b, (pending [.write 5#16 1#8, .write 5#16 0#8]).call ≠ .running b) ∧
    (pending [.write 5#16 1#8, .write 5#16 0#8]).host = [(5#16, 1#8), (5#16, 0#8)].map (fun w => HostCommand.write w.1 w.2) ++ [] :=
  ⟨rfl, pending_between _, rfl⟩
theorem witness_HostWriteBeforeACallIsFetched :
    (pending [.write 0xFFFC#16 1#8, .execute 1#32]).mem.wf = true ∧
    (∀ b, (pending [.write 0xFFFC#16 1#8, .execute 1#32]).call ≠ .running b) ∧
    (pending [.write 0xFFFC#16 1#8, .execute 1#32]).resetDone = true ∧
    (pending [.write 0xFFFC#16 1#8, .execute 1#32]).host = .write State.reset.cpu.pc 1#8 :: .execute 1#32 :: [] :=
  ⟨rfl, pending_between _, rfl, rfl⟩
theorem witness_ByteWrittenBeforeResetIsLost :
    (∀ b, (pending [.write 0xFFFC#16 0xA9#8, .cpuReset, .execute 1#32]).call ≠ .running b) ∧
    (pending [.write 0xFFFC#16 0xA9#8, .cpuReset, .execute 1#32]).host = .write 0xFFFC#16 0xA9#8 :: .cpuReset :: .execute 1#32 :: [] ∧
    1 ≤ (1#32).toNat := ⟨pending_between _, rfl, by decide⟩
theorem witness_MemoriesThatReadAlikeAreEqual : Memory.wf [(65535, 0x01#8)] = true ∧ Memory.wf (Memory.zeroed.write 65535#16 0x01#8) = true := by
  decide
theorem witness_StepKeepsMemoryCanonical :
    (pending [.write 0xFFFF#16 0x01#8]).mem.wf = true ∧ ∃ t, step (pending [.write 0xFFFF#16 0x01#8]) = .next t := ⟨rfl, _, rfl⟩
theorem witness_EveryStepKeepsTheInvariant :
    ((loaded [(0xFFFC, 0xA9#8)] 2).Inv ∧ ∃ t, step (loaded [(0xFFFC, 0xA9#8)] 2) = .next t) ∧
    ((pending [.execute 2#32]).Inv ∧ ∃ t, step (pending [.execute 2#32]) = .next t) := ⟨⟨by decide, _, rfl⟩, ⟨by decide, _, rfl⟩⟩
/-- Inside a call a pending `CPU::new()` is not taken; between calls another command is. -/
theorem witness_StepKeepsTheRegistersAsR39Says :
    (∃ s : State, s.resetDone = true ∧ s.cpu.betweenResets = true ∧ ((∀ b, s.call ≠ .running b) → s.host.head? ≠ some .cpuNew) ∧
      s.call = .running 2 ∧ s.host = [.cpuNew] ∧ ∃ t, step s = .next t) ∧
    (∃ s : State, s.resetDone = true ∧ s.cpu.betweenResets = true ∧ ((∀ b, s.call ≠ .running b) → s.host.head? ≠ some .cpuNew) ∧
      s.call = .idle ∧ s.host = [.cpuReset] ∧ ∃ t, step s = .next t) :=
  ⟨⟨{ loaded [(0xFFFC, 0xA9#8)] 2 with host := [.cpuNew] }, rfl, by decide, fun h => absurd rfl (h 2), rfl, rfl, _, rfl⟩,
   ⟨pending [.cpuReset], rfl, by decide, fun _ => by decide, rfl, rfl, _, rfl⟩⟩
theorem witness_RegistersBetweenResetsAreAsR39Says :
    .cpuNew ∉ [HostCommand.write 0xFFFC#16 0xA9#8, .execute 2#32] ∧
    ∃ t, core.run 3 { State.reset with host := [HostCommand.write 0xFFFC#16 0xA9#8, .execute 2#32] } = .next t := ⟨by decide, _, rfl⟩
theorem witness_TraceHookReceivesOneEventPerInstruction :
    (∃ t, step (loaded [(0xFFFC, 0xA9#8)] 2) = .next t ∧ t.call = .running 0) ∧
    (∃ t, step (loaded [] 1) = .next t ∧ t.call = .returned (.unknownOpcode 0x00#8 0xFFFC#16) 0) ∧
    (∃ t, step (loaded [(0xFFFC, 0xA9#8)] 1) = .next t ∧ t.call = .returned (.insufficientBudget 0xA9#8 0xFFFC#16) 1) ∧
    (∃ t, step (loaded [] 0) = .next t ∧ t.call = .returned .budgetExhausted 0) :=
  ⟨⟨_, rfl, rfl⟩, ⟨_, rfl, rfl⟩, ⟨_, rfl, rfl⟩, ⟨_, rfl, rfl⟩⟩
/-- The other memory differs in bytes the step does not read. -/
theorem witness_StepDependsOnlyOnTheBytesItReads :
    (loaded [(0x0010, 0x37#8), (0xFFFC, 0xA5#8), (0xFFFD, 0x10#8)] 3).call = .running 3 ∧
    Memory.read [(0x0010, 0x37#8), (0x0110, 0x99#8), (0xFFFC, 0xA5#8), (0xFFFD, 0x10#8)] 0xFFFC#16 = 0xA5#8 ∧
    Memory.read [(0x0010, 0x37#8), (0x0110, 0x99#8), (0xFFFC, 0xA5#8), (0xFFFD, 0x10#8)] 0xFFFD#16 = 0x10#8 ∧
    Memory.read [(0x0010, 0x37#8), (0x0110, 0x99#8), (0xFFFC, 0xA5#8), (0xFFFD, 0x10#8)] (BitVec.setWidth 16 0x10#8) = 0x37#8 := by decide

end Sys2Proof.Tests
end

/-! # The family of the state: what a step can do, and what it keeps (10_state.md) -/
namespace Sys2Proof.Machine

/-! ## What an instruction can do -/

/-- The byte an instruction loads into A at state `s`; none for a dispatch miss (R75, R88, R89). -/
def loadedByte (i : Instr) (s : State) : Option Byte :=
  match i with
  | .ldaImm imm8 => some imm8
  | .ldaZp zp8 => some (readZeroPage zp8 s)
  | .unrecognized _ => none

/-- Only a dispatch miss loads nothing. -/
theorem loadedByte_eq_none {i : Instr} {s : State} (h : loadedByte i s = none) : ∃ op, i = .unrecognized op := by
  cases i with
  | unrecognized op => exact ⟨op, rfl⟩
  | ldaImm imm8 => cases h
  | ldaZp zp8 => cases h

/-- The state after a completed load of `v` that took `cost` of the `b` cycles left (R76, R85, R88, R89). -/
def State.afterLoad (v : Byte) (b cost : Nat) (s : State) : State :=
  loadA v { s with cpu := { s.cpu with pc := s.cpu.pc + 2#16 }, call := .running (b - cost) }

/-- The state after a dispatch miss of `op` with `b` cycles left (R90). -/
def State.afterMiss (op : Byte) (b : Nat) (s : State) : State :=
  State.emit (.miss op s.cpu.pc)
    { s with cpu := { s.cpu with pc := s.cpu.pc + 1#16 }, call := .returned (.unknownOpcode op s.cpu.pc) (b - 1) }

/-- What an instruction does once the checks before it are passed (R75, R88, R89, R90). -/
def State.admitted (i : Instr) (s : State) : State :=
  match i with
  | .ldaImm imm8 => loadA (immediateOperand imm8) s.consumeByte.consumeByte
  | .ldaZp zp8 => loadA (readZeroPage zp8 s) s.consumeByte.consumeByte.charge
  | .unrecognized op => State.returnStatus (.unknownOpcode op s.cpu.pc) (State.emit (.miss op s.cpu.pc) s.consumeByte)

/-- Every meaning is the checks of `beginInstr` on its own opcode, and then its effect. -/
theorem exec_eq_beginInstr (i : Instr) (s : State) :
    exec i s = beginInstr i.opcode (fun s => .next (s.admitted i)) s := by
  cases i <;> rfl

theorem exec_admitted {i : Instr} {s : State} {b : Nat} (hcall : s.call = .running b) (hcost : costOf i.opcode ≤ b) :
    exec i s = .next (s.admitted i) := by
  rw [exec_eq_beginInstr, beginInstr_admitted hcall hcost]

/-- Both loads end alike, and only their cost differs. -/
theorem State.admitted_load {i : Instr} {s : State} {b : Nat} {v : Byte} (hv : loadedByte i s = some v)
    (hcall : s.call = .running b) : s.admitted i = s.afterLoad v b (costOf i.opcode) := by
  cases i with
  | ldaImm imm8 =>
    obtain rfl : imm8 = v := Option.some.inj hv
    rw [State.admitted, State.consume_two hcall]
    rfl
  | ldaZp zp8 =>
    obtain rfl : readZeroPage zp8 s = v := Option.some.inj hv
    rw [State.admitted, State.consume_two hcall]
    rfl
  | unrecognized op => cases hv

theorem State.admitted_miss {op : Byte} {s : State} {b : Nat} (hcall : s.call = .running b) :
    s.admitted (.unrecognized op) = s.afterMiss op b := by
  rw [State.admitted, State.consume_one hcall]
  rfl

/-- The next states `exec i s` can answer: one constructor per way it can go (R72, R73, R88, R89, R90; log 8). -/
inductive ExecCase (i : Instr) (s : State) : State → Prop
  | outside (hn : ∀ b, s.call ≠ .running b) : ExecCase i s s
  | exhausted (hcall : s.call = .running 0) : ExecCase i s { s with call := .returned .budgetExhausted 0 }
  | insufficient {b : Nat} (hcall : s.call = .running b) (hpos : 0 < b) (hlt : b < costOf i.opcode) :
      ExecCase i s { s with call := .returned (.insufficientBudget i.opcode s.cpu.pc) b }
  | load {b : Nat} {v : Byte} (hcall : s.call = .running b) (hcost : costOf i.opcode ≤ b)
      (hv : loadedByte i s = some v) : ExecCase i s (s.afterLoad v b (costOf i.opcode))
  | miss {b : Nat} {op : Byte} (hcall : s.call = .running b) (hcost : costOf op ≤ b) (hi : i = .unrecognized op) :
      ExecCase i s (s.afterMiss op b)

/-- Inversion of `exec`. -/
theorem exec_next {i : Instr} {s t : State} (h : exec i s = .next t) : ExecCase i s t := by
  rw [exec_eq_beginInstr] at h
  obtain ⟨hn, hb⟩ | ⟨hcall, hb⟩ | ⟨b, hcall, hpos, hlt, hb⟩ | ⟨b, hcall, hcost, hb⟩ :=
    beginInstr_cases i.opcode (fun s => .next (s.admitted i)) s <;>
    obtain rfl := Host.Outcome.next.inj (hb.symm.trans h)
  · exact .outside hn
  · rw [State.returnStatus, State.budget_running hcall]
    exact .exhausted hcall
  · rw [State.returnStatus, State.budget_running hcall]
    exact .insufficient hcall hpos hlt
  · cases hv : loadedByte i s with
    | some v =>
      rw [State.admitted_load hv hcall]
      exact .load hcall hcost hv
    | none =>
      obtain ⟨op, rfl⟩ := loadedByte_eq_none hv
      rw [State.admitted_miss hcall]
      exact .miss hcall hcost rfl

/-! ## What a step can do -/

/-- The next states a command of the control port can give (R10); a call starts only after a reset (R82). -/
inductive CommandCase (s : State) : HostCommand → State → Prop
  | memoryNew : CommandCase s .memoryNew s.memoryNew
  | cpuNew : CommandCase s .cpuNew s.cpuNew
  | memoryReset : CommandCase s .memoryReset s.memoryReset
  | cpuReset : CommandCase s .cpuReset s.cpuReset
  | write (addr : Addr) (v : Byte) : CommandCase s (.write addr v) (s.hostWrite addr v)
  | execute (budget : BitVec Config.budgetBits) (hreset : s.resetDone = true) :
      CommandCase s (.execute budget) { s with call := .running budget.toNat }

/-- Inversion of `runCommand`. -/
theorem runCommand_next {command : HostCommand} {s t : State} (h : runCommand command s = .next t) :
    CommandCase s command t := by
  cases command with
  | memoryNew => obtain rfl := Host.Outcome.next.inj h; exact .memoryNew
  | cpuNew => obtain rfl := Host.Outcome.next.inj h; exact .cpuNew
  | memoryReset => obtain rfl := Host.Outcome.next.inj h; exact .memoryReset
  | cpuReset => obtain rfl := Host.Outcome.next.inj h; exact .cpuReset
  | write addr v => obtain rfl := Host.Outcome.next.inj h; exact .write addr v
  | execute budget =>
    have h' : startExecute budget s = .next t := h
    obtain ⟨hreset, he⟩ | ⟨-, he⟩ := startExecute_cases budget s
    · obtain rfl := Host.Outcome.next.inj (he.symm.trans h')
      exact .execute budget hreset
    · cases he.symm.trans h'

/-- The next states `step s` can answer: the instruction at PC inside a call, nothing or one host command between calls. -/
inductive StepCase (s : State) : State → Prop
  | instr {b : Nat} {t : State} (hcall : s.call = .running b) (he : ExecCase s.instrAtPc s t) : StepCase s t
  | idle (hn : ∀ b, s.call ≠ .running b) (hh : s.host = []) : StepCase s s
  | command {c : HostCommand} {rest : List HostCommand} {t : State} (hn : ∀ b, s.call ≠ .running b)
      (hh : s.host = c :: rest) (hc : CommandCase { s with host := rest } c t) : StepCase s t

/-- Inversion of `step`. -/
theorem step_next {s t : State} (h : step s = .next t) : StepCase s t := by
  obtain ⟨b, hcall⟩ | hn := call_running_or_between s
  · rw [step_running hcall] at h
    exact .instr hcall (exec_next h)
  · cases hh : s.host with
    | nil =>
      rw [step_between hn, hostAct_nil hh] at h
      obtain rfl := Host.Outcome.next.inj h
      exact .idle hn hh
    | cons c rest =>
      rw [step_command hn hh] at h
      exact .command hn hh (runCommand_next h)

/-- If the instruction at PC loads a byte, its opcode is one of the two with a two-byte format. -/
theorem lengthOf_of_loadedByte {s : State} {v : Byte} (h : loadedByte s.instrAtPc s = some v) :
    lengthOf (s.mem.read s.cpu.pc) = 2 := by
  obtain ⟨hop, -⟩ | ⟨hop, -⟩ | ⟨-, hd⟩ := decodeBytes_cases (s.mem.read s.cpu.pc) (s.mem.read (s.cpu.pc + 1#16))
  · rw [hop, lengthOf_ldaImm]
  · rw [hop, lengthOf_ldaZp]
  · rw [State.instrAtPc, hd] at h; cases h

/-- An unrecognized opcode that a step runs is one of the 254 of R91. -/
theorem wellFormed_of_instrAtPc {s : State} {op : Byte} (h : s.instrAtPc = .unrecognized op) :
    (Instr.unrecognized op).wellFormed = true := by
  obtain ⟨-, hd⟩ | ⟨-, hd⟩ | ⟨hwf, hd⟩ := decodeBytes_cases (s.mem.read s.cpu.pc) (s.mem.read (s.cpu.pc + 1#16))
  · cases h.symm.trans hd
  · cases h.symm.trans hd
  · cases h.symm.trans hd
    exact hwf

/-! ## The frame of an instruction -/

/-- No instruction writes memory, `reset_done` or the host's commands. -/
theorem ExecCase.frame {i : Instr} {s t : State} (h : ExecCase i s t) :
    t.mem = s.mem ∧ t.resetDone = s.resetDone ∧ t.host = s.host := by
  cases h <;> exact ⟨rfl, rfl, rfl⟩

/-- The registers and flags no instruction writes (R21, R22, R26, R29). -/
theorem ExecCase.cpu_frame {i : Instr} {s t : State} (h : ExecCase i s t) :
    t.cpu.x = s.cpu.x ∧ t.cpu.y = s.cpu.y ∧ t.cpu.sp = s.cpu.sp ∧
    t.cpu.c = s.cpu.c ∧ t.cpu.i = s.cpu.i ∧ t.cpu.d = s.cpu.d ∧ t.cpu.b = s.cpu.b ∧ t.cpu.o = s.cpu.o := by
  cases h <;> exact ⟨rfl, rfl, rfl, rfl, rfl, rfl, rfl, rfl⟩

/-- A dispatch miss leaves A, Z and N alone too (R90). -/
theorem ExecCase.miss_frame {op : Byte} {s t : State} (h : ExecCase (.unrecognized op) s t) :
    t.cpu.a = s.cpu.a ∧ t.cpu.z = s.cpu.z ∧ t.cpu.n = s.cpu.n := by
  cases h with
  | load _ _ hv => cases hv
  | outside _ => exact ⟨rfl, rfl, rfl⟩
  | exhausted _ => exact ⟨rfl, rfl, rfl⟩
  | insufficient _ _ _ => exact ⟨rfl, rfl, rfl⟩
  | miss _ _ _ => exact ⟨rfl, rfl, rfl⟩

/-- Settles O26: from the frames of the cases of `exec`. -/
theorem instructionsLeaveAllElseUnchanged : Obligations.InstructionsLeaveAllElseUnchanged := by
  intro i s t h
  have hcase := exec_next h
  obtain ⟨hmem, hreset, hhost⟩ := hcase.frame
  obtain ⟨hx, hy, hsp, hc, hi, hd, hb, ho⟩ := hcase.cpu_frame
  refine ⟨fun addr => by rw [hmem], hx, hy, hsp, hc, hi, hd, hb, ho, hreset, hhost, ?_⟩
  rintro op rfl
  exact hcase.miss_frame

/-- Settles O24: a load that the budget covers completes, and its end is `SetLoadFlags` of the byte put into A. -/
theorem loadsSetZAndNFromTheLoadedByte : Obligations.LoadsSetZAndNFromTheLoadedByte := by
  intro i s b v hi hcall hcost
  obtain ⟨r, hr⟩ : ∃ r, loadedByte i s = some r := by
    obtain rfl | rfl := hi
    · exact ⟨_, rfl⟩
    · exact ⟨_, rfl⟩
  refine ⟨s.admitted i, exec_admitted hcall hcost, ?_⟩
  rw [State.admitted_load hr hcall]
  exact ⟨rfl, rfl, rfl, rfl, rfl, rfl, rfl⟩

/-! ## PC -/

/-- Only a completed load leaves the call in progress, and it moves PC by 2. -/
theorem ExecCase.load_of_running {i : Instr} {s t : State} {b b' : Nat} (h : ExecCase i s t) (hs : s.call = .running b)
    (ht : t.call = .running b') : (∃ v, loadedByte i s = some v) ∧ t.cpu.pc = s.cpu.pc + 2#16 := by
  cases h with
  | outside hn => exact absurd hs (hn b)
  | exhausted _ => cases ht
  | insufficient _ _ _ => cases ht
  | load _ _ hv => exact ⟨⟨_, hv⟩, rfl⟩
  | miss _ _ _ => cases ht

/-- Of the host's commands only the reset and the constructor of the CPU move PC. -/
theorem CommandCase.pc_eq_or {s t : State} {c : HostCommand} (h : CommandCase s c t) :
    t.cpu.pc = s.cpu.pc ∨ c = .cpuReset ∨ c = .cpuNew := by
  cases h with
  | cpuNew => exact .inr (.inr rfl)
  | cpuReset => exact .inr (.inl rfl)
  | memoryNew => exact .inl rfl
  | memoryReset => exact .inl rfl
  | write _ _ => exact .inl rfl
  | execute _ _ => exact .inl rfl

/-- Settles O28: inside a call by the one case that goes on, a load, whose format has two bytes; between calls by the command taken. -/
theorem pcMovesByTheLengthOfTheInstruction : Obligations.PcMovesByTheLengthOfTheInstruction := by
  refine ⟨fun s t b b' hs h ht => ?_, fun s t h hpc hn => ?_⟩
  · rw [step_running hs] at h
    obtain ⟨⟨v, hv⟩, hpc⟩ := (exec_next h).load_of_running hs ht
    rw [lengthOf_of_loadedByte hv, hpc]
    exact BitVec.toNat_add s.cpu.pc 2#16
  · cases step_next h with
    | instr hcall _ => exact absurd hcall (hn _)
    | idle _ _ => exact absurd rfl hpc
    | @command c rest _ _ hh hc =>
      obtain he | rfl | rfl := hc.pc_eq_or
      · exact absurd he hpc
      · exact ⟨rest, .inl hh⟩
      · exact ⟨rest, .inr hh⟩

/-! ## The registers between resets (R39) -/

/-- R39, field by field. -/
theorem Cpu.betweenResets_iff (cpu : Cpu) :
    cpu.betweenResets = true ↔
      cpu.x = 0x00#8 ∧ cpu.y = 0x00#8 ∧ cpu.sp = 0x00FF#16 ∧
      cpu.c = false ∧ cpu.i = false ∧ cpu.d = false ∧ cpu.b = false ∧ cpu.o = false ∧
      ((cpu.a = 0x00#8 ∧ cpu.z = false ∧ cpu.n = false) ∨ (cpu.z = (cpu.a == 0x00#8) ∧ cpu.n = cpu.a[7])) := by
  simp only [Cpu.betweenResets, Bool.and_eq_true, Bool.or_eq_true, beq_iff_eq, Bool.not_eq_true', and_assoc]

@[simp] theorem Cpu.betweenResets_afterReset : Cpu.afterReset.betweenResets = true := rfl

/-- R39 does not speak of PC. -/
@[simp] theorem Cpu.betweenResets_pc (cpu : Cpu) (pc : Addr) : { cpu with pc := pc }.betweenResets = cpu.betweenResets := rfl

/-- A load makes Z and N agree with A, and leaves the rest. -/
theorem Cpu.betweenResets_load {cpu : Cpu} (h : cpu.betweenResets = true) (v : Byte) :
    (setLoadFlags v { cpu with a := v }).betweenResets = true := by
  obtain ⟨hx, hy, hsp, hc, hi, hd, hb, ho, -⟩ := cpu.betweenResets_iff.mp h
  exact (Cpu.betweenResets_iff _).mpr ⟨hx, hy, hsp, hc, hi, hd, hb, ho, .inr ⟨rfl, rfl⟩⟩

theorem ExecCase.keeps_betweenResets {i : Instr} {s t : State} (h : ExecCase i s t) (hs : s.cpu.betweenResets = true) :
    t.cpu.betweenResets = true := by
  cases h with
  | outside _ => exact hs
  | exhausted _ => exact hs
  | insufficient _ _ _ => exact hs
  | @load _ v _ _ _ => exact Cpu.betweenResets_load ((Cpu.betweenResets_pc s.cpu _).trans hs) v
  | miss _ _ _ => exact (Cpu.betweenResets_pc s.cpu _).trans hs

/-- Every command but `CPU::new()` leaves the CPU after a reset, with registers as R39 says. -/
theorem CommandCase.keeps_betweenResets {s t : State} {c : HostCommand} (h : CommandCase s c t) (hc : c ≠ .cpuNew)
    (hreset : s.resetDone = true) (hs : s.cpu.betweenResets = true) :
    t.resetDone = true ∧ t.cpu.betweenResets = true := by
  cases h with
  | cpuNew => exact absurd rfl hc
  | cpuReset => exact ⟨rfl, rfl⟩
  | memoryNew => exact ⟨hreset, hs⟩
  | memoryReset => exact ⟨hreset, hs⟩
  | write _ _ => exact ⟨hreset, hs⟩
  | execute _ _ => exact ⟨hreset, hs⟩

/-- Settles O52: an instruction changes A, Z and N together or not at all; of the commands only the excluded one leaves R39. -/
theorem stepKeepsTheRegistersAsR39Says : Obligations.StepKeepsTheRegistersAsR39Says := by
  intro s t hreset hs hnew h
  cases step_next h with
  | instr _ he =>
    obtain ⟨-, hreset', -⟩ := he.frame
    exact ⟨hreset'.trans hreset, he.keeps_betweenResets hs⟩
  | idle _ _ => exact ⟨hreset, hs⟩
  | @command c rest _ hn hh hc =>
    have hne : c ≠ .cpuNew := by
      rintro rfl
      exact hnew hn (by simp [hh])
    exact hc.keeps_betweenResets hne hreset hs

/-! ## Runs from reset -/

/-- What every step keeps holds after any number of steps. -/
theorem core_run_keeps {P : State → Prop} (hP : ∀ s t, P s → step s = .next t → P t) {k : Nat} {s t : State}
    (hs : P s) (h : core.run k s = .next t) : P t := by
  induction k generalizing s with
  | zero => exact Host.Outcome.next.inj h ▸ hs
  | succ k ih =>
    cases hstep : step s with
    | next u =>
      rw [core_run_succ k hstep] at h
      exact ih (hP s u hs hstep) h
    | fault f => cases f
    | refused r =>
      have hstep' : core.step s = .refused r := hstep
      simp [Host.Core.run, hstep'] at h

/-- A command leaves the commands after it as they are. -/
theorem CommandCase.host_eq {s t : State} {c : HostCommand} (h : CommandCase s c t) : t.host = s.host := by
  cases h <;> rfl

/-- A step gives the host no new command. -/
theorem step_host_subset {s t : State} (h : step s = .next t) : t.host ⊆ s.host := by
  cases step_next h with
  | instr _ he =>
    obtain ⟨-, -, hhost⟩ := he.frame
    rw [hhost]
    exact List.Subset.refl _
  | idle _ _ => exact List.Subset.refl _
  | command _ hh hc =>
    rw [hc.host_eq, hh]
    exact List.subset_cons_self _ _

/-- R39 along a run: after a reset, with registers as R39 says and no `CPU::new()` to come. -/
def State.BetweenResets (s : State) : Prop :=
  s.resetDone = true ∧ s.cpu.betweenResets = true ∧ .cpuNew ∉ s.host

theorem step_keeps_BetweenResets {s t : State} (hs : s.BetweenResets) (h : step s = .next t) : t.BetweenResets := by
  obtain ⟨hreset, hcpu, hnew⟩ := hs
  have hhead : s.host.head? ≠ some .cpuNew := fun he => hnew (List.mem_of_head? he)
  obtain ⟨hreset', hcpu'⟩ := stepKeepsTheRegistersAsR39Says s t hreset hcpu (fun _ => hhead) h
  exact ⟨hreset', hcpu', fun hmem => hnew (step_host_subset h hmem)⟩

/-- Settles O47: the run starts in R39's registers with no `CPU::new()` to come, and every step keeps both. -/
theorem registersBetweenResetsAreAsR39Says : Obligations.RegistersBetweenResetsAreAsR39Says := by
  intro commands k t hnew h
  obtain ⟨-, hcpu, -⟩ := core_run_keeps (P := State.BetweenResets) (fun _ _ => step_keeps_BetweenResets) ⟨rfl, rfl, hnew⟩ h
  exact t.cpu.betweenResets_iff.mp hcpu

/-! ## The invariant -/

/-- A command keeps the canonical form of memory: it writes one byte, clears all, or leaves memory alone. -/
theorem CommandCase.keeps_mem_wf {s t : State} {c : HostCommand} (h : CommandCase s c t) (hs : s.mem.wf = true) :
    t.mem.wf = true := by
  cases h with
  | memoryNew => exact Memory.wf_zeroed
  | memoryReset => exact Memory.wf_zeroed
  | cpuReset => exact Memory.wf_zeroed
  | write addr v => exact Memory.wf_write hs addr v
  | cpuNew => exact hs
  | execute _ _ => exact hs

theorem step_keeps_mem_wf {s t : State} (hs : s.mem.wf = true) (h : step s = .next t) : t.mem.wf = true := by
  cases step_next h with
  | instr _ he =>
    obtain ⟨hmem, -, -⟩ := he.frame
    rwa [hmem]
  | idle _ _ => exact hs
  | command _ _ hc => exact hc.keeps_mem_wf hs

/-- A call in progress is one after a reset, with a budget below 2^32. -/
theorem callConsistent_running {s : State} {b : Nat} (h : s.call = .running b) :
    callConsistent s = true ↔ s.resetDone = true ∧ b < 2 ^ Config.budgetBits := by
  simp [callConsistent, h]

/-- A result is one of a call after a reset, below 2^32 and in agreement with PC. -/
theorem callConsistent_returned {s : State} {st : Status} {r : Nat} (h : s.call = .returned st r) :
    callConsistent s = true ↔
      s.resetDone = true ∧ r < 2 ^ Config.budgetBits ∧ statusConsistent st r s.cpu.pc = true := by
  simp [callConsistent, h, and_assoc]

/-- The instruction at PC keeps the call consistent: it lowers the budget, and a miss is one of the 254 opcodes. -/
theorem ExecCase.keeps_callConsistent {s t : State} (h : ExecCase s.instrAtPc s t) (hs : callConsistent s = true) :
    callConsistent t = true := by
  cases h with
  | outside _ => exact hs
  | exhausted hcall =>
    obtain ⟨hreset, hlt⟩ := (callConsistent_running hcall).mp hs
    exact (callConsistent_returned rfl).mpr ⟨hreset, hlt, rfl⟩
  | @insufficient b hcall hpos hcost =>
    obtain ⟨hreset, hlt⟩ := (callConsistent_running hcall).mp hs
    exact (callConsistent_returned rfl).mpr ⟨hreset, hlt, by simp [statusConsistent, hpos, hcost]⟩
  | load hcall _ _ =>
    obtain ⟨hreset, hlt⟩ := (callConsistent_running hcall).mp hs
    exact (callConsistent_running rfl).mpr ⟨hreset, by omega⟩
  | miss hcall _ hi =>
    obtain ⟨hreset, hlt⟩ := (callConsistent_running hcall).mp hs
    exact (callConsistent_returned rfl).mpr
      ⟨hreset, by omega, by simp [State.afterMiss, statusConsistent, wellFormed_of_instrAtPc hi]⟩

theorem CommandCase.keeps_callConsistent {s t : State} {c : HostCommand} (h : CommandCase s c t)
    (hs : callConsistent s = true) : callConsistent t = true := by
  cases h with
  | memoryNew => exact hs
  | memoryReset => exact hs
  | write _ _ => exact hs
  | cpuNew => rfl
  | cpuReset => rfl
  | execute budget hreset => exact (callConsistent_running rfl).mpr ⟨hreset, budget.isLt⟩

theorem step_keeps_callConsistent {s t : State} (hs : callConsistent s = true) (h : step s = .next t) :
    callConsistent t = true := by
  cases step_next h with
  | instr _ he => exact he.keeps_callConsistent hs
  | idle _ _ => exact hs
  | command _ _ hc => exact hc.keeps_callConsistent hs

theorem registersConsistent_of_reset {s : State} (h : s.resetDone = true) :
    registersConsistent s = s.cpu.betweenResets := by
  simp [registersConsistent, h]

theorem CommandCase.keeps_registersConsistent {s t : State} {c : HostCommand} (h : CommandCase s c t)
    (hs : registersConsistent s = true) : registersConsistent t = true := by
  cases h with
  | cpuNew => rfl
  | cpuReset => rfl
  | memoryNew => exact hs
  | memoryReset => exact hs
  | write _ _ => exact hs
  | execute _ _ => exact hs

/-- An instruction runs only in a call, so after a reset (R82), and there it keeps R39; before a reset nothing runs (R37). -/
theorem step_keeps_registersConsistent {s t : State} (hcons : callConsistent s = true)
    (hs : registersConsistent s = true) (h : step s = .next t) : registersConsistent t = true := by
  cases step_next h with
  | instr hcall he =>
    obtain ⟨hreset, -⟩ := (callConsistent_running hcall).mp hcons
    rw [registersConsistent_of_reset hreset] at hs
    obtain ⟨-, hreset', -⟩ := he.frame
    rw [registersConsistent_of_reset (hreset'.trans hreset)]
    exact he.keeps_betweenResets hs
  | idle _ _ => exact hs
  | command _ _ hc => exact hc.keeps_registersConsistent hs

/-- Settles O46: each of the three parts of the invariant is kept, the registers with the help of the call. -/
theorem everyStepKeepsTheInvariant : Obligations.EveryStepKeepsTheInvariant := by
  rintro s t ⟨hmem, hcall, hregs⟩ h
  exact ⟨step_keeps_mem_wf hmem h, step_keeps_callConsistent hcall h, step_keeps_registersConsistent hcall hregs h⟩

/-- Settles O45: nothing is listed in memory, no call exists, and the registers hold the reset values. -/
theorem invariantHoldsAtReset : Obligations.InvariantHoldsAtReset :=
  ⟨Memory.wf_zeroed, rfl, Cpu.betweenResets_afterReset⟩

/-! ## The registers no instruction reads -/

/-- What is left of a state when X, Y, SP and the flags are those of `cpu` and the trace record is dropped. -/
def State.readView (cpu : Cpu) (s : State) : State := State.untraced (State.withUnreadOf cpu s)

section ReadView
variable (cpu : Cpu) (s : State)

@[simp] theorem State.readView_call : (s.readView cpu).call = s.call := rfl
@[simp] theorem State.readView_resetDone : (s.readView cpu).resetDone = s.resetDone := rfl
@[simp] theorem State.readView_pc : (s.readView cpu).cpu.pc = s.cpu.pc := rfl
@[simp] theorem State.readView_instrAtPc : (s.readView cpu).instrAtPc = s.instrAtPc := rfl

/-- The view has already forgotten what `withUnreadOf` replaces. -/
theorem State.readView_withUnreadOf : (State.withUnreadOf cpu s).readView cpu = s.readView cpu := rfl

theorem State.readView_returnStatus (st : Status) :
    (s.returnStatus st).readView cpu = ((s.readView cpu).returnStatus st).readView cpu := rfl

theorem State.readView_charge : s.charge.readView cpu = (s.readView cpu).charge := by
  simp only [State.charge, State.readView_call]
  split <;> rfl

theorem State.readView_consumeByte : s.consumeByte.readView cpu = (s.readView cpu).consumeByte :=
  State.readView_charge cpu s.advancePc

/-- A load writes A from `v` alone, and writes only flags besides. -/
theorem State.readView_loadA (v : Byte) : (loadA v s).readView cpu = (loadA v (s.readView cpu)).readView cpu := rfl

theorem State.readView_emit (e : TraceEvent) : (s.emit e).readView cpu = s.readView cpu := rfl

theorem State.readView_admitted (i : Instr) :
    (s.admitted i).readView cpu = ((s.readView cpu).admitted i).readView cpu := by
  cases i with
  | ldaImm imm8 =>
    rw [State.admitted, State.readView_loadA, State.readView_consumeByte, State.readView_consumeByte]
    rfl
  | ldaZp zp8 =>
    rw [State.admitted, State.readView_loadA, State.readView_charge, State.readView_consumeByte, State.readView_consumeByte]
    rfl
  | unrecognized op =>
    rw [State.admitted, State.readView_returnStatus, State.readView_emit, State.readView_consumeByte]
    rfl

/-- The checks before an instruction look only at the call and at PC. -/
theorem exec_readView (i : Instr) :
    mapNext (State.readView cpu) (exec i s) = mapNext (State.readView cpu) (exec i (s.readView cpu)) := by
  simp only [exec_eq_beginInstr, beginInstr, State.readView_call, State.readView_pc]
  split
  · rfl
  · rfl
  · split
    · rfl
    · split
      · rfl
      · exact congrArg Host.Outcome.next (State.readView_admitted cpu s i)

/-- No command of the host reads a register. -/
theorem runCommand_readView (c : HostCommand) :
    mapNext (State.readView cpu) (runCommand c s) = mapNext (State.readView cpu) (runCommand c (s.readView cpu)) := by
  cases c with
  | execute budget =>
    cases hreset : s.resetDone <;> simp only [runCommand, startExecute, State.readView_resetDone, hreset]
    · rfl
    · rfl
  | memoryNew => rfl
  | cpuNew => rfl
  | memoryReset => rfl
  | cpuReset => rfl
  | write addr v => rfl

/-- Up to the view, a step from a state is the step from its view. -/
theorem step_readView :
    mapNext (State.readView cpu) (step s) = mapNext (State.readView cpu) (step (s.readView cpu)) := by
  obtain ⟨b, hcall⟩ | hn := call_running_or_between s
  · rw [step_running hcall, step_running (s := s.readView cpu) hcall, State.readView_instrAtPc]
    exact exec_readView cpu s s.instrAtPc
  · rw [step_between hn, step_between (s := s.readView cpu) hn]
    cases hh : s.host with
    | nil => rw [hostAct_nil hh, hostAct_nil (s := s.readView cpu) hh]; rfl
    | cons c rest =>
      rw [hostAct_cons hh, hostAct_cons (s := s.readView cpu) hh]
      exact runCommand_readView cpu { s with host := rest } c

end ReadView

/-- Settles O50: a state and the one with its unread registers replaced have the same view, and a step depends on the view. -/
theorem unreadRegistersNeverInfluenceTheRest : Obligations.UnreadRegistersNeverInfluenceTheRest := by
  intro s cpu
  calc mapNext (State.readView cpu) (step (State.withUnreadOf cpu s))
      = mapNext (State.readView cpu) (step ((State.withUnreadOf cpu s).readView cpu)) := step_readView cpu _
    _ = mapNext (State.readView cpu) (step (s.readView cpu)) := by rw [State.readView_withUnreadOf]
    _ = mapNext (State.readView cpu) (step s) := (step_readView cpu s).symm

/-! ## Construction and reset -/

/-- Settles O36: the command is taken and its next state is `State.cpuNew`. -/
theorem cpuNewIsAllZeroAndNotReset : Obligations.CpuNewIsAllZeroAndNotReset := by
  intro s rest hn hh
  exact ⟨State.cpuNew { s with host := rest }, step_command hn hh, rfl, rfl, rfl, rfl⟩

/-- Settles O37: the registers are `Cpu.afterReset`, no byte of memory is listed, and no call exists. -/
theorem resetStateHoldsTheResetValues : Obligations.ResetStateHoldsTheResetValues := by
  refine ⟨rfl, rfl, rfl, rfl, rfl, rfl, rfl, rfl, rfl, rfl, rfl, rfl, Memory.read_zeroed, rfl, fun b h => ?_⟩
  cases h

end Sys2Proof.Machine

/-! # The family of memory: who writes it, what a read gives, and when two memories are equal (20_memory.md) -/
namespace Sys2Proof.Machine

/-! ## Canonical memories are equal when they read alike -/

theorem Memory.wfFrom_cons (lo k : Nat) (v : Byte) (m : Memory) :
    Memory.wfFrom lo ((k, v) :: m) = true ↔
      lo ≤ k ∧ k < Config.memSize ∧ v ≠ Config.clearByte ∧ Memory.wfFrom (k + 1) m = true := by
  simp only [Memory.wfFrom, Bool.and_eq_true, decide_eq_true_eq, bne_iff_ne, and_assoc]

@[simp] theorem Memory.readAt_cons_self (k : Nat) (v : Byte) (m : Memory) : Memory.readAt ((k, v) :: m) k = v :=
  if_pos rfl

theorem Memory.readAt_cons_of_ne {k a : Nat} (hne : k ≠ a) (v : Byte) (m : Memory) :
    Memory.readAt ((k, v) :: m) a = Memory.readAt m a :=
  if_neg hne

/-- No key beyond the last address is listed. -/
theorem Memory.readAt_of_memSize_le {lo a : Nat} {m : Memory} (h : Memory.wfFrom lo m = true) (ha : Config.memSize ≤ a) :
    Memory.readAt m a = Config.clearByte := by
  induction m generalizing lo with
  | nil => rfl
  | cons c m ih =>
    obtain ⟨k, v⟩ := c
    obtain ⟨-, hk, -, hm⟩ := (Memory.wfFrom_cons lo k v m).mp h
    rw [Memory.readAt_cons_of_ne (by omega), ih hm]

/-- A memory whose first listed key lies below every key of another reads differently there. -/
theorem Memory.readAt_head_ne {lo lo' k : Nat} {v : Byte} {m m' : Memory} (h : Memory.wfFrom lo ((k, v) :: m) = true)
    (h' : Memory.wfFrom lo' m' = true) (hk : k < lo') : Memory.readAt ((k, v) :: m) k ≠ Memory.readAt m' k := by
  obtain ⟨-, -, hv, -⟩ := (Memory.wfFrom_cons lo k v m).mp h
  rwa [Memory.readAt_cons_self, Memory.readAt_below h' hk]

/-- Two canonical memories that read alike list the same keys in the same order: the lower of two first keys would tell them apart. -/
theorem Memory.eq_of_readAt_eq {lo lo' : Nat} {m m' : Memory} (h : Memory.wfFrom lo m = true)
    (h' : Memory.wfFrom lo' m' = true) (hr : ∀ a, Memory.readAt m a = Memory.readAt m' a) : m = m' := by
  induction m generalizing lo lo' m' with
  | nil =>
    cases m' with
    | nil => rfl
    | cons c' m' => exact absurd (hr c'.1).symm (Memory.readAt_head_ne (lo' := c'.1 + 1) h' rfl (Nat.lt_succ_self _))
  | cons c m ih =>
    cases m' with
    | nil => exact absurd (hr c.1) (Memory.readAt_head_ne (lo' := c.1 + 1) h rfl (Nat.lt_succ_self _))
    | cons c' m' =>
      obtain ⟨k, v⟩ := c
      obtain ⟨k', v'⟩ := c'
      obtain ⟨-, hk, hv, hm⟩ := (Memory.wfFrom_cons lo k v m).mp h
      obtain ⟨-, hk', hv', hm'⟩ := (Memory.wfFrom_cons lo' k' v' m').mp h'
      obtain hlt | rfl | hlt := Nat.lt_trichotomy k k'
      · exact absurd (hr k) (Memory.readAt_head_ne h ((Memory.wfFrom_cons k' k' v' m').mpr ⟨le_rfl, hk', hv', hm'⟩) hlt)
      · have hval : v = v' := by simpa using hr k
        have htail : ∀ a, Memory.readAt m a = Memory.readAt m' a := by
          intro a
          obtain hlt | hge := Nat.lt_or_ge k a
          · simpa only [Memory.readAt_cons_of_ne hlt.ne] using hr a
          · rw [Memory.readAt_below hm (by omega), Memory.readAt_below hm' (by omega)]
        rw [hval, ih hm hm' htail]
      · exact absurd (hr k').symm
          (Memory.readAt_head_ne h' ((Memory.wfFrom_cons k k v m).mpr ⟨le_rfl, hk, hv, hm⟩) hlt)

/-- Settles O43: reads at the 65536 addresses settle reads at every key, and those settle the list. -/
theorem memoriesThatReadAlikeAreEqual : Obligations.MemoriesThatReadAlikeAreEqual := by
  intro m m' hm hm' hr
  refine Memory.eq_of_readAt_eq hm hm' fun a => ?_
  obtain hlt | hge := Nat.lt_or_ge a Config.memSize
  · have ha : (BitVec.ofNat 16 a).toNat = a := BitVec.toNat_ofNat a 16 ▸ Nat.mod_eq_of_lt hlt
    simpa only [Memory.read, ha] using hr (BitVec.ofNat 16 a)
  · rw [Memory.readAt_of_memSize_le hm hge, Memory.readAt_of_memSize_le hm' hge]

/-! ## Who writes memory -/

/-- Of the host's commands only a write, the two resets and the constructor of the memory touch memory. -/
theorem CommandCase.mem_eq_or {s t : State} {c : HostCommand} (h : CommandCase s c t) :
    t.mem = s.mem ∨ (∃ addr v, c = .write addr v) ∨ c = .memoryReset ∨ c = .cpuReset ∨ c = .memoryNew := by
  cases h with
  | cpuNew => exact .inl rfl
  | execute _ _ => exact .inl rfl
  | write addr v => exact .inr (.inl ⟨addr, v, rfl⟩)
  | memoryReset => exact .inr (.inr (.inl rfl))
  | cpuReset => exact .inr (.inr (.inr (.inl rfl)))
  | memoryNew => exact .inr (.inr (.inr (.inr rfl)))

/-- Settles O27: no instruction writes memory, and of the commands only the four named do. -/
theorem onlyTheHostAndTheResetsWriteMemory : Obligations.OnlyTheHostAndTheResetsWriteMemory := by
  rintro s t h ⟨addr, hne⟩
  have hmem : t.mem ≠ s.mem := fun he => hne (by rw [he])
  cases step_next h with
  | instr _ he =>
    obtain ⟨hframe, -, -⟩ := he.frame
    exact absurd hframe hmem
  | idle _ _ => exact absurd rfl hmem
  | @command c rest _ hn hh hc =>
    obtain he | hwriter := hc.mem_eq_or
    · exact absurd he hmem
    · exact ⟨hn, c, rest, hh, hwriter⟩

/-! ## The host's writes -/

/-- A host write is one step, and it touches memory and the list of commands only (R46, R55). -/
theorem step_write {s : State} {addr : Addr} {v : Byte} {rest : List HostCommand} (hn : ∀ b, s.call ≠ .running b)
    (hh : s.host = .write addr v :: rest) : step s = .next { s with mem := s.mem.write addr v, host := rest } :=
  step_command hn hh

/-- After a reset, `execute` starts its call in one step (R71). -/
theorem step_execute {s : State} {budget : BitVec Config.budgetBits} {rest : List HostCommand}
    (hn : ∀ b, s.call ≠ .running b) (hreset : s.resetDone = true) (hh : s.host = .execute budget :: rest) :
    step s = .next { s with host := rest, call := .running budget.toNat } :=
  (step_command hn hh).trans (if_pos hreset)

/-- Settles O39: the step is `Memory.write`, and one write changes one byte. -/
theorem hostWriteChangesExactlyOneByte : Obligations.HostWriteChangesExactlyOneByte := by
  intro s addr v rest hwf hn hh
  exact ⟨s.mem.write addr v, step_write hn hh, fun addr' => Memory.read_write hwf addr addr' v⟩

/-- Settles O41: the write gives PC its byte, and the start of the call moves neither PC nor memory. -/
theorem hostWriteBeforeACallIsFetched : Obligations.HostWriteBeforeACallIsFetched := by
  intro s v budget rest hwf hn hreset hh
  refine ⟨{ s with mem := s.mem.write s.cpu.pc v, host := rest, call := .running budget.toNat }, ?_, rfl,
    Memory.read_write_self hwf s.cpu.pc v⟩
  rw [core_run_succ 1 (step_write hn hh)]
  exact core_run_one (step_execute hn hreset rfl)

/-- Memory after a series of host writes, the first one of the list first. -/
def Memory.writeAll (m : Memory) : List (Addr × Byte) → Memory
  | [] => m
  | w :: writes => (m.write w.1 w.2).writeAll writes

/-- A series of host writes is one step each, and touches memory and the list of commands only. -/
theorem core_run_writes {s : State} {writes : List (Addr × Byte)} {rest : List HostCommand}
    (hn : ∀ b, s.call ≠ .running b) (hh : s.host = writes.map (fun w => HostCommand.write w.1 w.2) ++ rest) :
    core.run writes.length s = .next { s with mem := s.mem.writeAll writes, host := rest } := by
  induction writes generalizing s with
  | nil =>
    obtain rfl : s.host = rest := hh
    rfl
  | cons w writes ih =>
    rw [List.length_cons, core_run_succ writes.length (step_write hn hh)]
    exact ih hn rfl

/-- The last write to an address is the first one found from the end of the list; without one the old byte stays. -/
theorem Memory.read_writeAll {m : Memory} (h : m.wf = true) (writes : List (Addr × Byte)) (addr : Addr) :
    (m.writeAll writes).read addr =
      ((writes.reverse.find? (fun w => w.1 == addr)).map Prod.snd).getD (m.read addr) := by
  induction writes generalizing m with
  | nil => rfl
  | cons w writes ih =>
    rw [Memory.writeAll, ih (Memory.wf_write h w.1 w.2), List.reverse_cons, List.find?_append]
    cases writes.reverse.find? (fun w => w.1 == addr) with
    | some last => rfl
    | none =>
      by_cases he : w.1 = addr
      · subst he
        simp [Memory.read_write_self h]
      · simp [he, Memory.read_write_other m w.2 (Ne.symm he)]

/-- Settles O40: the run makes the writes in order, and the last one to an address is the one read. -/
theorem readsReturnTheLastHostWrite : Obligations.ReadsReturnTheLastHostWrite := by
  intro s writes rest hwf hn hh
  exact ⟨s.mem.writeAll writes, core_run_writes hn hh, Memory.read_writeAll hwf writes⟩

/-! ## Zero-filled memory -/

/-- Settles O35: either command puts `Memory.zeroed` in place of the old memory (log 11), and every byte of it reads 0. -/
theorem memoryResetAndNewMemoryAreZeroFilled : Obligations.MemoryResetAndNewMemoryAreZeroFilled := by
  intro s rest command hn hcommand hh
  refine ⟨Memory.zeroed, Memory.read_zeroed, ?_⟩
  obtain rfl | rfl := hcommand
  · exact step_command hn hh
  · exact step_command hn hh

end Sys2Proof.Machine

/-! # The family of the encoding: the decoder, the encoder, and the bytes a step reads (30_encoding.md) -/
namespace Sys2Proof

/-! ## The decoder answers exactly the encodings of well-formed instructions -/

/-- An unrecognized opcode is a whole instruction, whatever follows it (R57). -/
theorem decode_other {op : Byte} (h : (Instr.unrecognized op).wellFormed = true) (rest : List Byte) :
    decode (op :: rest) = .instr (.unrecognized op) rest := by
  simp only [decode, lengthOf_other h, decodeBytes_other h, if_true]

/-- A byte at the head of a list that decodes is the opcode of a row, and what that row takes is its encoding (R62, R63). -/
theorem encode_of_decode {bytes rest : List Byte} {i : Instr} (h : decode bytes = .instr i rest) :
    i.wellFormed = true ∧ encode i ++ rest = bytes := by
  cases bytes with
  | nil => cases h
  | cons op tail =>
    obtain ⟨rfl, -⟩ | ⟨rfl, -⟩ | ⟨hwf, -⟩ := opcode_cases op
    · cases tail with
      | nil => cases h
      | cons imm8 tail => cases h; exact ⟨rfl, rfl⟩
    · cases tail with
      | nil => cases h
      | cons zp8 tail => cases h; exact ⟨rfl, rfl⟩
    · rw [decode_other hwf] at h
      cases h
      exact ⟨hwf, rfl⟩

theorem decode_encode {i : Instr} (h : i.wellFormed = true) (rest : List Byte) : decode (encode i ++ rest) = .instr i rest := by
  cases i with
  | ldaImm imm8 => exact decode_two ldaImmOpcode imm8 rest
  | ldaZp zp8 => exact decode_two ldaZpOpcode zp8 rest
  | unrecognized op => exact decode_other h rest

/-- Settles O1: by the row of the instruction. -/
theorem decodeOfEncodeIsIdentity : Obligations.DecodeOfEncodeIsIdentity :=
  fun _ rest h => decode_encode h rest

/-- Settles O2: by the row of the first byte. -/
theorem encodeOfDecodeIsIdentity : Obligations.EncodeOfDecodeIsIdentity :=
  fun _ _ _ h => encode_of_decode h

/-! ## One row for every opcode byte -/

theorem wellFormed_unrecognized {op : Byte} :
    (Instr.unrecognized op).wellFormed = true ↔ op ≠ 0xA9#8 ∧ op ≠ 0xA5#8 := by
  simp [Instr.wellFormed]

/-- The rows of the opcode map, each with its opcode bytes (R62): `formatOf` names the row of a byte, so it is in no other. -/
theorem formatOf_eq_iff (op : Byte) (f : Format) :
    formatOf op = f ↔
      (f = .opImm8 ∧ op = 0xA9#8) ∨ (f = .opZp8 ∧ op = 0xA5#8) ∨ (f = .op ∧ op ≠ 0xA9#8 ∧ op ≠ 0xA5#8) := by
  obtain ⟨rfl, hf⟩ | ⟨rfl, hf⟩ | ⟨hwf, hf⟩ := opcode_cases op
  · rw [hf]; simp [ldaImmOpcode, eq_comm]
  · rw [hf]; simp [ldaZpOpcode, eq_comm]
  · obtain ⟨h₁, h₂⟩ := wellFormed_unrecognized.mp hwf
    rw [hf]; simp [h₁, h₂, eq_comm]

/-- Settles O3: the one row is `formatOf op`, and `decode_two` takes what it says. -/
theorem everyByteDecodesToExactlyOneRow : Obligations.EveryByteDecodesToExactlyOneRow := by
  intro op operand rest
  refine ⟨⟨formatOf op, (formatOf_eq_iff op _).mp rfl, fun f hf => ((formatOf_eq_iff op f).mpr hf).symm⟩, ?_⟩
  obtain ⟨rfl, -⟩ | ⟨rfl, -⟩ | ⟨hwf, -⟩ := opcode_cases op
  · rfl
  · rfl
  · obtain ⟨h₁, h₂⟩ := wellFormed_unrecognized.mp hwf
    rw [decode_other hwf, if_neg h₁, if_neg h₂]

/-! ## The length of an instruction (R56) -/

theorem length_encode_decodeBytes (op operand : Byte) : (encode (decodeBytes op operand)).length = lengthOf op := by
  obtain ⟨rfl, hd⟩ | ⟨rfl, hd⟩ | ⟨hwf, hd⟩ := decodeBytes_cases op operand
  · rfl
  · rfl
  · rw [hd, lengthOf_other hwf]; rfl

theorem lengthOf_eq (op : Byte) : lengthOf op = if op = 0xA9#8 then 2 else if op = 0xA5#8 then 2 else 1 := by
  obtain ⟨rfl, -⟩ | ⟨rfl, -⟩ | ⟨hwf, -⟩ := opcode_cases op
  · rfl
  · rfl
  · obtain ⟨h₁, h₂⟩ := wellFormed_unrecognized.mp hwf
    rw [lengthOf_other hwf, if_neg h₁, if_neg h₂]

/-- Settles O5: the decoder takes the length of the opcode off the list, and the address after PC is PC + 1. -/
theorem instructionLengthIsFixedByTheOpcode : Obligations.InstructionLengthIsFixedByTheOpcode := by
  refine ⟨lengthOf_eq, fun op operand rest => ?_, fun s => ?_⟩
  · exact ⟨decodeBytes op operand, decode_two op operand rest, length_encode_decodeBytes op operand⟩
  · have hnext : (s.cpu.pc + 1#16).toNat = (s.cpu.pc.toNat + 1) % 65536 := BitVec.toNat_add s.cpu.pc 1#16
    exact ⟨s.cpu.pc + 1#16, hnext, _, decode_two (s.mem.read s.cpu.pc) (s.mem.read (s.cpu.pc + 1#16)) []⟩

/-! ## Table words -/

/-- A table word always decodes, since it is laid out as two bytes. -/
theorem decodeTableWord_eq (nbits w : Nat) :
    decodeTableWord nbits w = some (decodeBytes (tableBytes nbits w).1 (tableBytes nbits w).2) := by
  rw [decodeTableWord, decode_two]

/-- Settles O6: the lists of bytes are the encodings of the instructions, and a table word is its two bytes (log 13, log 16). -/
theorem wordsWrittenFromTheFormatsDecode : Obligations.WordsWrittenFromTheFormatsDecode :=
  ⟨decode_encode (i := .ldaImm 0x42#8) rfl [], decode_encode (i := .ldaZp 0x10#8) rfl [],
    decode_encode (i := .unrecognized 0xFF#8) rfl [0x42#8],
    decodeTableWord_eq 16 0x42A9, decodeTableWord_eq 8 0xA5, decodeTableWord_eq 8 0x00⟩

end Sys2Proof

namespace Sys2Proof.Machine

/-- Settles O25: the operand byte is the address, and a byte is at most 0xFF. -/
theorem zeroPageOperandNamesOneOfTheFirst256Bytes : Obligations.ZeroPageOperandNamesOneOfTheFirst256Bytes := by
  intro zp8 s
  have hlt := zp8.isLt
  refine ⟨zeroPageAddr_toNat zp8, ?_, rfl⟩
  rw [zeroPageAddr_toNat]
  omega

/-! ## The bytes a step reads (R65, R115) -/

/-- The state with memory `m` in place of its own. -/
def State.withMem (m : Memory) (s : State) : State := { s with mem := m }

/-- The bytes of the cycle table (R115) are the same in `m` as in the memory of `s`: the opcode at PC, the operand byte of a load, the
data byte of LDA Zero Page. -/
structure ReadsAlike (m : Memory) (s : State) : Prop where
  opcode : m.read s.cpu.pc = s.mem.read s.cpu.pc
  operand : s.mem.read s.cpu.pc = 0xA9#8 ∨ s.mem.read s.cpu.pc = 0xA5#8 →
    m.read (s.cpu.pc + 1#16) = s.mem.read (s.cpu.pc + 1#16)
  data : s.mem.read s.cpu.pc = 0xA5#8 →
    m.read (zeroPageAddr (s.mem.read (s.cpu.pc + 1#16))) = s.mem.read (zeroPageAddr (s.mem.read (s.cpu.pc + 1#16)))

section ReadsAlike
variable {m : Memory} {s : State} (hr : ReadsAlike m s)
include hr

/-- The second byte of the decoder's window counts only for a load (R65). -/
theorem ReadsAlike.instrAtPc_eq : (s.withMem m).instrAtPc = s.instrAtPc := by
  change decodeBytes (m.read s.cpu.pc) (m.read (s.cpu.pc + 1#16)) =
    decodeBytes (s.mem.read s.cpu.pc) (s.mem.read (s.cpu.pc + 1#16))
  rw [hr.opcode]
  obtain ⟨hop, -⟩ | ⟨hop, -⟩ | ⟨hwf, -⟩ := opcode_cases (s.mem.read s.cpu.pc)
  · rw [hr.operand (.inl hop)]
  · rw [hr.operand (.inr hop)]
  · rw [decodeBytes_other hwf, decodeBytes_other hwf]

/-- Of the instructions only LDA Zero Page reads a byte of data. -/
theorem ReadsAlike.loadedByte_eq : loadedByte s.instrAtPc (s.withMem m) = loadedByte s.instrAtPc s := by
  rw [State.instrAtPc]
  obtain ⟨-, hd⟩ | ⟨hop, hd⟩ | ⟨-, hd⟩ := decodeBytes_cases (s.mem.read s.cpu.pc) (s.mem.read (s.cpu.pc + 1#16))
  · rw [hd]; rfl
  · rw [hd]; exact congrArg some (hr.data hop)
  · rw [hd]; rfl

end ReadsAlike

/-- The effect of an instruction depends on memory only through the byte it loads. -/
theorem State.admitted_withMem {i : Instr} {s : State} {b : Nat} {m : Memory} (hcall : s.call = .running b)
    (hload : loadedByte i (s.withMem m) = loadedByte i s) : (s.withMem m).admitted i = (s.admitted i).withMem m := by
  cases hv : loadedByte i s with
  | some v =>
    rw [State.admitted_load hv hcall, State.admitted_load (hload.trans hv) (s := s.withMem m) hcall]
    rfl
  | none =>
    obtain ⟨op, rfl⟩ := loadedByte_eq_none hv
    rw [State.admitted_miss hcall, State.admitted_miss (s := s.withMem m) hcall]
    rfl

/-- The checks before an instruction do not look at memory. -/
theorem exec_withMem {i : Instr} {s : State} {b : Nat} {m : Memory} (hcall : s.call = .running b)
    (hload : loadedByte i (s.withMem m) = loadedByte i s) :
    exec i (s.withMem m) = mapNext (State.withMem m) (exec i s) := by
  have hcall' : (s.withMem m).call = .running b := hcall
  simp only [exec_eq_beginInstr, beginInstr, hcall, hcall']
  split
  · rfl
  · split
    · rfl
    · exact congrArg Host.Outcome.next (State.admitted_withMem hcall hload)

/-- Settles O51: the bytes read give the same instruction the same byte to load. -/
theorem stepDependsOnlyOnTheBytesItReads : Obligations.StepDependsOnlyOnTheBytesItReads := by
  intro s b m hcall hopcode hoperand hdata
  have hr : ReadsAlike m s := ⟨hopcode, hoperand, hdata⟩
  calc step (s.withMem m)
      = exec (s.withMem m).instrAtPc (s.withMem m) := step_running (s := s.withMem m) hcall
    _ = exec s.instrAtPc (s.withMem m) := by rw [hr.instrAtPc_eq]
    _ = mapNext (State.withMem m) (exec s.instrAtPc s) := exec_withMem hcall hr.loadedByte_eq
    _ = mapNext (State.withMem m) (step s) := by rw [step_running hcall]

end Sys2Proof.Machine

/-! # The family of fetch and dispatch: the loop of `execute`, its budget, and the pseudocode it refines (40_fetch_dispatch.md) -/
namespace Sys2Proof.Machine

/-! ## What a step inside a call does, check by check (R72, R73, R74) -/

/-- The instruction at PC has the byte at PC for its opcode. -/
@[simp] theorem State.opcode_instrAtPc (s : State) : s.instrAtPc.opcode = s.mem.read s.cpu.pc := by
  obtain ⟨hop, hd⟩ | ⟨hop, hd⟩ | ⟨-, hd⟩ := decodeBytes_cases (s.mem.read s.cpu.pc) (s.mem.read (s.cpu.pc + 1#16))
  · rw [State.instrAtPc, hd, hop]; rfl
  · rw [State.instrAtPc, hd, hop]; rfl
  · rw [State.instrAtPc, hd]; rfl

/-- Every meaning answers a next state: it neither faults nor refuses. -/
theorem exec_total (i : Instr) (s : State) : ∃ t, exec i s = .next t := by
  rw [exec_eq_beginInstr]
  obtain ⟨-, hb⟩ | ⟨-, hb⟩ | ⟨_, -, -, -, hb⟩ | ⟨_, -, -, hb⟩ :=
    beginInstr_cases i.opcode (fun s => .next (s.admitted i)) s
  · exact ⟨_, hb⟩
  · exact ⟨_, hb⟩
  · exact ⟨_, hb⟩
  · exact ⟨_, hb⟩

/-- Inside a call a step gives a next state, by one of the cases of the instruction at PC. -/
theorem step_running_total {s : State} {b : Nat} (hcall : s.call = .running b) :
    ∃ t, step s = .next t ∧ ExecCase s.instrAtPc s t := by
  obtain ⟨t, ht⟩ := exec_total s.instrAtPc s
  exact ⟨t, (step_running hcall).trans ht, exec_next ht⟩

/-- The checks of `beginInstr` in a step are made on the byte at PC. -/
theorem step_eq_beginInstr {s : State} {b : Nat} (hcall : s.call = .running b) :
    step s = beginInstr (s.mem.read s.cpu.pc) (fun t => .next (t.admitted s.instrAtPc)) s := by
  rw [step_running hcall, exec_eq_beginInstr, State.opcode_instrAtPc]

theorem step_exhausted {s : State} (hcall : s.call = .running 0) :
    step s = .next { s with call := .returned .budgetExhausted 0 } := by
  simp [step_eq_beginInstr hcall, beginInstr, hcall, State.returnStatus, State.budget_running hcall]

theorem step_insufficient {s : State} {b : Nat} (hcall : s.call = .running b) (hpos : 0 < b)
    (hlt : b < costOf (s.mem.read s.cpu.pc)) :
    step s = .next { s with call := .returned (.insufficientBudget (s.mem.read s.cpu.pc) s.cpu.pc) b } := by
  simp [step_eq_beginInstr hcall, beginInstr, hcall, hpos.ne', hlt, State.returnStatus, State.budget_running hcall]

theorem step_admitted {s : State} {b : Nat} (hcall : s.call = .running b) (hcost : costOf (s.mem.read s.cpu.pc) ≤ b) :
    step s = .next (s.admitted s.instrAtPc) := by
  rw [step_eq_beginInstr hcall, beginInstr_admitted hcall hcost]

/-- Settles O12: the over-budget step is `step_insufficient`; an unrecognized opcode costs 1, so a positive budget covers it. -/
theorem overBudgetInstructionIsNotBegun : Obligations.OverBudgetInstructionIsNotBegun := by
  refine fun s b hcall hpos => ⟨step_insufficient hcall hpos, fun h₁ h₂ => ?_⟩
  obtain ⟨t, hstep, he⟩ := step_running_total hcall
  refine ⟨t, hstep, fun op addr r ht => ?_⟩
  have hcost : costOf s.instrAtPc.opcode = 1 := by
    rw [State.opcode_instrAtPc]; exact costOf_other (wellFormed_unrecognized.mpr ⟨h₁, h₂⟩)
  cases he with
  | outside hn => exact hn b hcall
  | exhausted _ => cases ht
  | insufficient _ _ hlt => omega
  | load _ _ _ => cases ht
  | miss _ _ _ => cases ht

/-! ## The budget (R77) -/

section Budget
variable {i : Instr} {s t : State} {b r : Nat} (h : ExecCase i s t) (hs : s.call = .running b)
include h hs

/-- A call that goes on has paid the cost of one load. -/
theorem ExecCase.budget_of_running (ht : t.call = .running r) : r + costOf i.opcode = b := by
  cases h with
  | outside hn => exact absurd hs (hn b)
  | exhausted _ => cases ht
  | insufficient _ _ _ => cases ht
  | load hcall hcost _ =>
    cases hs.symm.trans hcall
    cases ht
    exact Nat.sub_add_cancel hcost
  | miss _ _ _ => cases ht

theorem ExecCase.budget_of_unknownOpcode {op : Byte} {addr : Addr} (ht : t.call = .returned (.unknownOpcode op addr) r) :
    r + 1 = b := by
  cases h with
  | outside hn => exact absurd hs (hn b)
  | exhausted _ => cases ht
  | insufficient _ _ _ => cases ht
  | load _ _ _ => cases ht
  | miss hcall hcost _ =>
    cases hs.symm.trans hcall
    cases ht
    exact Nat.sub_add_cancel ((costOf_pos _).trans_le hcost)

theorem ExecCase.budget_of_returned {st : Status} (ht : t.call = .returned st r) : r ≤ b := by
  cases h with
  | outside hn => exact absurd hs (hn b)
  | exhausted _ => cases ht; exact Nat.zero_le b
  | insufficient hcall _ _ =>
    cases hs.symm.trans hcall
    cases ht
    exact le_rfl
  | load _ _ _ => cases ht
  | miss hcall _ _ =>
    cases hs.symm.trans hcall
    cases ht
    exact Nat.sub_le b 1

end Budget

/-- Settles O13: by the case of the instruction at PC that the step takes. -/
theorem completedInstructionsLowerTheBudgetByTheirCost : Obligations.CompletedInstructionsLowerTheBudgetByTheirCost := by
  intro s b hcall
  obtain ⟨t, hstep, he⟩ := step_running_total hcall
  refine ⟨t, hstep, fun b' ht => ?_, fun _ _ _ => he.budget_of_unknownOpcode hcall, fun _ _ => he.budget_of_returned hcall⟩
  rw [← State.opcode_instrAtPc]
  exact he.budget_of_running hcall ht

/-! ## The cost (R70) -/

theorem costOf_eq (op : Byte) : costOf op = if op = 0xA9#8 then 2 else if op = 0xA5#8 then 3 else 1 := by
  obtain ⟨rfl, -⟩ | ⟨rfl, -⟩ | ⟨hwf, -⟩ := opcode_cases op
  · rfl
  · rfl
  · obtain ⟨h₁, h₂⟩ := wellFormed_unrecognized.mp hwf
    rw [costOf_other hwf, if_neg h₁, if_neg h₂]

/-- Each byte of the instruction costs a cycle, and LDA Zero Page reads one byte more. -/
theorem costOf_eq_lengthOf_add (op : Byte) : costOf op = lengthOf op + if op = 0xA5#8 then 1 else 0 := by
  obtain ⟨rfl, -⟩ | ⟨rfl, -⟩ | ⟨hwf, -⟩ := opcode_cases op
  · rfl
  · rfl
  · obtain ⟨-, h₂⟩ := wellFormed_unrecognized.mp hwf
    rw [costOf_other hwf, lengthOf_other hwf, if_neg h₂]

/-- Settles O10: by the row of the opcode. -/
theorem costIsTheNumberOfBytesRead : Obligations.CostIsTheNumberOfBytesRead :=
  fun op => ⟨costOf_eq op, costOf_eq_lengthOf_add op⟩

/-- A load costs at least the two bytes of its format. -/
theorem two_le_costOf_of_loadedByte {s : State} {v : Byte} (h : loadedByte s.instrAtPc s = some v) :
    2 ≤ costOf (s.mem.read s.cpu.pc) := by
  rw [costOf_eq_lengthOf_add, lengthOf_of_loadedByte h]
  exact Nat.le_add_right 2 _

/-! ## One pass of the pseudocode (R78) -/

/-- What one pass of the pseudocode can give, in the terms of the machine's own effects. The pseudocode keeps its budget in a local
variable, so the pass leaves the call of `s` as it was. -/
inductive PassCase (s : State) (b : Nat) : LoopResult → Prop
  | exhausted (hb : b = 0) : PassCase s b (.done s .budgetExhausted 0)
  | insufficient (hpos : 0 < b) (hlt : b < costOf (s.mem.read s.cpu.pc)) :
      PassCase s b (.done s (.insufficientBudget (s.mem.read s.cpu.pc) s.cpu.pc) b)
  | load {v : Byte} (hcost : costOf (s.mem.read s.cpu.pc) ≤ b) (hv : loadedByte s.instrAtPc s = some v) :
      PassCase s b (.again { s.afterLoad v b (costOf (s.mem.read s.cpu.pc)) with call := s.call }
        (b - costOf (s.mem.read s.cpu.pc)))
  | miss {op : Byte} (hcost : costOf (s.mem.read s.cpu.pc) ≤ b) (hi : s.instrAtPc = .unrecognized op) :
      PassCase s b (.done { s.afterMiss op b with call := s.call } (.unknownOpcode op s.cpu.pc) (b - 1))

/-- Two fetches move PC by 2. -/
theorem State.advancePc_twice (s : State) :
    s.advancePc.advancePc = { s with cpu := { s.cpu with pc := s.cpu.pc + 2#16 } } := by
  have hpc : s.cpu.pc + 1#16 + 1#16 = s.cpu.pc + 2#16 := by bv_omega
  simp [State.advancePc, hpc]

/-- The pseudocode's end of a load is the machine's. -/
theorem pseudoLoad_eq (v : Byte) (s : State) : pseudoLoad v s = loadA v s := rfl

/-! The byte at PC decides which way a pass goes that the checks let through (R75). -/

section LoopPass
variable {s : State} {b : Nat} (hcost : costOf (s.mem.read s.cpu.pc) ≤ b)
include hcost

theorem loopPass_ldaImm (hop : s.mem.read s.cpu.pc = ldaImmOpcode) :
    loopPass s b =
      .again { s.afterLoad (s.mem.read (s.cpu.pc + 1#16)) b (costOf (s.mem.read s.cpu.pc)) with call := s.call }
        (b - costOf (s.mem.read s.cpu.pc)) := by
  have hb : b ≠ 0 := ((costOf_pos _).trans_le hcost).ne'
  calc loopPass s b
      = .again (pseudoLoad (s.mem.read (s.cpu.pc + 1#16)) s.advancePc.advancePc) (b - 1 - 1) :=
        (if_neg hb).trans ((if_neg (Nat.not_lt.mpr hcost)).trans (if_pos hop))
    _ = _ := by rw [State.advancePc_twice, hop]; rfl

theorem loopPass_ldaZp (hop : s.mem.read s.cpu.pc = ldaZpOpcode) :
    loopPass s b =
      .again
        { s.afterLoad (readZeroPage (s.mem.read (s.cpu.pc + 1#16)) s) b (costOf (s.mem.read s.cpu.pc)) with call := s.call }
        (b - costOf (s.mem.read s.cpu.pc)) := by
  have hb : b ≠ 0 := ((costOf_pos _).trans_le hcost).ne'
  have hne : s.mem.read s.cpu.pc ≠ 0xA9#8 := by rw [hop]; decide
  calc loopPass s b
      = .again (pseudoLoad (readZeroPage (s.mem.read (s.cpu.pc + 1#16)) s) s.advancePc.advancePc) (b - 1 - 1 - 1) :=
        (if_neg hb).trans ((if_neg (Nat.not_lt.mpr hcost)).trans ((if_neg hne).trans (if_pos hop)))
    _ = _ := by rw [State.advancePc_twice, hop]; rfl

theorem loopPass_unrecognized (hwf : (Instr.unrecognized (s.mem.read s.cpu.pc)).wellFormed = true) :
    loopPass s b = .done { s.afterMiss (s.mem.read s.cpu.pc) b with call := s.call }
      (.unknownOpcode (s.mem.read s.cpu.pc) s.cpu.pc) (b - 1) := by
  obtain ⟨h₁, h₂⟩ := wellFormed_unrecognized.mp hwf
  have hb : b ≠ 0 := ((costOf_pos _).trans_le hcost).ne'
  exact (if_neg hb).trans ((if_neg (Nat.not_lt.mpr hcost)).trans ((if_neg h₁).trans (if_neg h₂)))

end LoopPass

/-- Inversion of `loopPass`. -/
theorem loopPass_cases (s : State) (b : Nat) : PassCase s b (loopPass s b) := by
  by_cases hb : b = 0
  · rw [loopPass, if_pos hb]
    exact .exhausted hb
  by_cases hlt : b < costOf (s.mem.read s.cpu.pc)
  · rw [loopPass, if_neg hb, if_pos hlt]
    exact .insufficient (Nat.pos_of_ne_zero hb) hlt
  have hcost := Nat.le_of_not_lt hlt
  obtain ⟨hop, hd⟩ | ⟨hop, hd⟩ | ⟨hwf, hd⟩ :=
    decodeBytes_cases (s.mem.read s.cpu.pc) (s.mem.read (s.cpu.pc + 1#16))
  · rw [loopPass_ldaImm hcost hop]
    exact .load hcost (congrArg (loadedByte · s) hd)
  · rw [loopPass_ldaZp hcost hop]
    exact .load hcost (congrArg (loadedByte · s) hd)
  · rw [loopPass_unrecognized hcost hwf]
    exact .miss hcost hd

/-- A pass that goes on has taken at least 2 cycles, as only the loads do that, and leaves the host's commands alone (R84). -/
theorem loopPass_again {s s' : State} {b b' : Nat} (h : loopPass s b = .again s' b') : b' + 2 ≤ b ∧ s'.host = s.host := by
  have hp := loopPass_cases s b
  rw [h] at hp
  cases hp with
  | load hcost hv =>
    have htwo := two_le_costOf_of_loadedByte hv
    exact ⟨by omega, rfl⟩

/-- A pass that returns hands back no more than there was (R77), and leaves the host's commands alone. -/
theorem loopPass_done {s s' : State} {b r : Nat} {st : Status} (h : loopPass s b = .done s' st r) :
    r ≤ b ∧ s'.host = s.host := by
  have hp := loopPass_cases s b
  rw [h] at hp
  cases hp with
  | exhausted _ => exact ⟨Nat.zero_le b, rfl⟩
  | insufficient _ _ => exact ⟨le_rfl, rfl⟩
  | miss _ _ => exact ⟨Nat.sub_le b 1, rfl⟩

/-! ## A step is one pass -/

/-- The state inside a call with `b` cycles left: where the pseudocode, whose budget is a variable, stands at the start of a pass. -/
def State.inCall (b : Nat) (s : State) : State := { s with call := .running b }

/-- The machine's reading of the end of a pass: the budget or the result goes to the call. -/
def LoopResult.outcome (r : LoopResult) : Result :=
  match r with
  | .again s b => .next (s.inCall b)
  | .done s st remaining => .next { s with call := .returned st remaining }

theorem State.inCall_self {s : State} {b : Nat} (hcall : s.call = .running b) : s.inCall b = s := by
  rw [State.inCall, ← hcall]

theorem PassCase.step_inCall {s : State} {b : Nat} {r : LoopResult} (h : PassCase s b r) :
    step (s.inCall b) = r.outcome := by
  have hcall : (s.inCall b).call = .running b := rfl
  cases h with
  | exhausted hb => subst hb; exact step_exhausted hcall
  | insufficient hpos hlt => exact step_insufficient hcall hpos hlt
  | @load v hcost hv =>
    calc step (s.inCall b)
        = .next ((s.inCall b).admitted s.instrAtPc) := step_admitted hcall hcost
      _ = .next ((s.inCall b).afterLoad v b (costOf s.instrAtPc.opcode)) :=
          congrArg Host.Outcome.next (State.admitted_load hv hcall)
      _ = _ := by rw [State.opcode_instrAtPc]; rfl
  | @miss op hcost hi =>
    calc step (s.inCall b)
        = .next ((s.inCall b).admitted s.instrAtPc) := step_admitted hcall hcost
      _ = .next ((s.inCall b).afterMiss op b) := by rw [hi, State.admitted_miss hcall]

/-- Whatever call `s` was in, with `b` cycles left a step makes one pass of the pseudocode. -/
theorem step_inCall (s : State) (b : Nat) : step (s.inCall b) = (loopPass s b).outcome :=
  (loopPass_cases s b).step_inCall

/-- Settles O17: a state inside a call is `inCall` of its own budget. -/
theorem stepRefinesThePseudocode : Obligations.StepRefinesThePseudocode := by
  intro s b hcall
  calc step s
      = step (s.inCall b) := by rw [State.inCall_self hcall]
    _ = (loopPass s b).outcome := step_inCall s b
    _ = _ := rfl

/-! ## A whole call (R78, R84) -/

/-- The loop returns within `b / 2 + 1` passes, and the machine, one step a pass, comes to the same end. -/
theorem executeLoop_returns {fuel b : Nat} {s : State} (hfuel : b / 2 < fuel) :
    ∃ k s' st r, executeLoop fuel s b = some (s', st, r) ∧
      core.run k (s.inCall b) = .next { s' with call := .returned st r } ∧ s'.host = s.host ∧ k ≤ fuel ∧ r ≤ b := by
  induction fuel generalizing s b with
  | zero => omega
  | succ fuel ih =>
    have hstep := step_inCall s b
    rw [executeLoop]
    cases hpass : loopPass s b with
    | done s' st r =>
      rw [hpass] at hstep
      obtain ⟨hr, hhost⟩ := loopPass_done hpass
      exact ⟨1, s', st, r, rfl, core_run_one hstep, hhost, by omega, hr⟩
    | again s₁ b₁ =>
      rw [hpass] at hstep
      obtain ⟨hb, hhost₁⟩ := loopPass_again hpass
      obtain ⟨k, s', st, r, hloop, hrun, hhost, hk, hr⟩ := ih (s := s₁) (b := b₁) (by omega)
      exact ⟨k + 1, s', st, r, hloop, (core_run_succ k hstep).trans hrun, hhost.trans hhost₁, by omega, by omega⟩

/-- Settles O16: the call returns when the loop does, and each pass that goes on takes at least 2 cycles. -/
theorem everyCallReturns : Obligations.EveryCallReturns := by
  intro s b hcall
  obtain ⟨k, s', st, r, -, hrun, -, hk, hr⟩ := executeLoop_returns (s := s) (Nat.lt_succ_self (b / 2))
  rw [State.inCall_self hcall] at hrun
  exact ⟨k, _, st, r, hk, hrun, rfl, hr⟩

/-- Settles O18: the first step starts the call (R71) or is refused (R82), and then the loop and the machine go together. -/
theorem executeCallRefinesThePseudocode : Obligations.ExecuteCallRefinesThePseudocode := by
  intro s budget rest hn hh
  split
  next hreset =>
    obtain ⟨k, s', st, r, hloop, hrun, hhost, -, -⟩ :=
      executeLoop_returns (s := { s with host := rest }) (Nat.lt_succ_self (budget.toNat / 2))
    exact ⟨k + 1, s', st, r, hloop, (core_run_succ k (step_execute hn hreset hh)).trans hrun, hhost⟩
  next hreset => exact (step_command hn hh).trans (if_neg hreset)

/-! ## Calls and refusals (R71, R72, R81, R82) -/

/-- Settles O29: the command is taken and the call starts. -/
theorem executeStartsACallWithItsBudget : Obligations.ExecuteStartsACallWithItsBudget :=
  fun _ _ _ => step_execute

/-- Settles O11: the first check ends the call, and `execute` starts a call with exactly its budget. -/
theorem budgetOfZeroReturnsBudgetExhausted : Obligations.BudgetOfZeroReturnsBudgetExhausted := by
  refine ⟨fun s => step_exhausted, fun s rest hn hreset hh => ?_⟩
  rw [core_run_succ 1 (step_execute hn hreset hh)]
  exact core_run_one (step_exhausted rfl)

/-- Settles O31: the refusal leaves the instruction at PC, and the next call finds it there. -/
theorem overBudgetInstructionRunsInALaterCall : Obligations.OverBudgetInstructionRunsInALaterCall := by
  intro s b budget rest hcall hpos hlt hreset hh _
  obtain ⟨t, ht⟩ := exec_total s.instrAtPc { s with host := rest, call := .running budget.toNat }
  have hrefusal := step_insufficient hcall hpos hlt
  have hstart := step_execute
    (s := { s with call := .returned (.insufficientBudget (s.mem.read s.cpu.pc) s.cpu.pc) b }) (fun _ => nofun) hreset hh
  rw [core_run_succ 2 hrefusal, ht]
  exact (core_run_succ 1 hstart).trans (core_run_one ((step_running rfl).trans ht))

/-- Of the host's commands only `execute` is ever refused, and only before a reset (R82). -/
theorem runCommand_refused {c : HostCommand} {s : State} {e : Refusal} (h : runCommand c s = .refused e) :
    e = .notReset ∧ s.resetDone = false ∧ ∃ budget, c = .execute budget := by
  cases c with
  | execute budget =>
    have h' : startExecute budget s = .refused e := h
    obtain ⟨-, he⟩ | ⟨hreset, he⟩ := startExecute_cases budget s
    · cases he.symm.trans h'
    · cases he.symm.trans h'
      exact ⟨rfl, hreset, budget, rfl⟩
  | memoryNew => cases h
  | cpuNew => cases h
  | memoryReset => cases h
  | cpuReset => cases h
  | write _ _ => cases h

/-- A step is refused only between calls, on a host command that is refused. -/
theorem step_refused {s : State} {e : Refusal} (h : step s = .refused e) :
    (∀ b, s.call ≠ .running b) ∧ ∃ c rest, s.host = c :: rest ∧ runCommand c { s with host := rest } = .refused e := by
  obtain ⟨b, hcall⟩ | hn := call_running_or_between s
  · obtain ⟨t, hstep, -⟩ := step_running_total hcall
    cases hstep.symm.trans h
  · cases hh : s.host with
    | nil =>
      rw [step_between hn, hostAct_nil hh] at h
      cases h
    | cons c rest => exact ⟨hn, c, rest, rfl, (step_command hn hh).symm.trans h⟩

/-- Settles O30: a refused step is a refused command, and there is no fault at all. -/
theorem onlyExecuteBeforeResetIsRefused : Obligations.OnlyExecuteBeforeResetIsRefused := by
  refine ⟨fun s e => ⟨fun h => ?_, ?_⟩, fun s f => nomatch f⟩
  · obtain ⟨hn, c, rest, hh, hc⟩ := step_refused h
    obtain ⟨he, hreset, budget, rfl⟩ := runCommand_refused hc
    exact ⟨he, hn, hreset, budget, rest, hh⟩
  · rintro ⟨rfl, hn, hreset, budget, rest, hh⟩
    exact (step_command hn hh).trans (if_neg (by simp [hreset]))

/-! ## Fetch and the decoder in the step (R68, R74) -/

/-- Settles O7: only PC moves, by one modulo 65536. -/
theorem fetchReadsTheByteAtPcAndAdvances : Obligations.FetchReadsTheByteAtPcAndAdvances :=
  fun s => ⟨rfl, rfl, BitVec.toNat_add s.cpu.pc 1#16⟩

/-- Settles O8: the decoder reads the instruction at PC from the two bytes there. -/
theorem stepRunsTheDecodedInstruction : Obligations.StepRunsTheDecodedInstruction := by
  intro s b i rest hcall hdecode _
  rw [decode_two] at hdecode
  obtain ⟨rfl, -⟩ := Decoded.instr.inj hdecode
  exact step_running hcall

end Sys2Proof.Machine

/-! # The family of the loads: LDA Immediate, LDA Zero Page and SetLoadFlags (41_load.md) -/
namespace Sys2Proof.Machine

/-! ## What a completed load leaves (R85, R88, R89) -/

/-- A load that the budget covers completes, whichever of the two it is. -/
theorem exec_load {i : Instr} {s : State} {b : Nat} {v : Byte} (hv : loadedByte i s = some v)
    (hcall : s.call = .running b) (hcost : costOf i.opcode ≤ b) :
    exec i s = .next (s.afterLoad v b (costOf i.opcode)) := by
  rw [exec_admitted hcall hcost, State.admitted_load hv hcall]

/-- The fields a completed load writes; all the others are those of `s`. -/
theorem State.afterLoad_eq (v : Byte) (b cost : Nat) (s : State) :
    s.afterLoad v b cost =
      { s with
        cpu := { s.cpu with a := v, z := v == 0x00#8, n := v[7], pc := s.cpu.pc + 2#16 }
        call := .running (b - cost)
        trace := (s.afterLoad v b cost).trace } := rfl

/-- Settles O19: the load of the operand itself, at a cost of 2. -/
theorem ldaImmediateLoadsItsOperand : Obligations.LdaImmediateLoadsItsOperand := by
  intro s b imm8 hcall hcost
  have hload : exec (.ldaImm imm8) s = .next (s.afterLoad imm8 b 2) := exec_load rfl hcall hcost
  exact ⟨_, hload.trans (congrArg Host.Outcome.next (State.afterLoad_eq imm8 b 2 s))⟩

/-- Settles O20: the load of the byte at the zero extension of the operand, at a cost of 3. -/
theorem ldaZeroPageLoadsTheByteItNames : Obligations.LdaZeroPageLoadsTheByteItNames := by
  intro s b zp8 hcall hcost
  have hload : exec (.ldaZp zp8) s = .next (s.afterLoad (s.mem.read (zp8.setWidth 16)) b 3) :=
    exec_load rfl hcall hcost
  exact ⟨_, hload.trans (congrArg Host.Outcome.next (State.afterLoad_eq (s.mem.read (zp8.setWidth 16)) b 3 s))⟩

/-! ## SetLoadFlags (R86) -/

/-- Bit 7 of a byte is set exactly when its unsigned value is in the upper half. -/
theorem byte_bit7_iff (r : Byte) : r[7] = true ↔ 0x80 ≤ r.toNat := by
  have hmsb : r[7] = r.msb := rfl
  rw [hmsb, BitVec.msb_eq_decide, decide_eq_true_iff]

/-- Settles O23: Z compares the byte with 0, N is its bit 7, and the record update names no other field. -/
theorem setLoadFlagsWritesZAndNOnly : Obligations.SetLoadFlagsWritesZAndNOnly := by
  intro r cpu
  refine ⟨?_, ?_, rfl⟩
  · rw [setLoadFlags_z, beq_iff_eq]
  · rw [setLoadFlags_n, byte_bit7_iff]

end Sys2Proof.Machine

/-! # The family of the unrecognized opcodes: the dispatch miss and the 254 values it answers to (42_unrecognized.md) -/
namespace Sys2Proof

/-! ## The unrecognized opcodes (R91) -/

/-- The decoder takes a byte for an unrecognized opcode exactly when it is the opcode of neither load (R64). -/
theorem decodeBytes_eq_unrecognized_iff (op operand : Byte) :
    decodeBytes op operand = .unrecognized op ↔ op ≠ 0xA9#8 ∧ op ≠ 0xA5#8 := by
  obtain ⟨rfl, hd⟩ | ⟨rfl, hd⟩ | ⟨hwf, hd⟩ := decodeBytes_cases op operand
  · rw [hd]; simp [ldaImmOpcode]
  · rw [hd]; simp [ldaZpOpcode]
  · exact iff_of_true hd (wellFormed_unrecognized.mp hwf)

/-- The three ranges of R91 leave out 0xA5 and 0xA9 only. -/
theorem ne_load_opcodes_iff_ranges (op : Byte) :
    op ≠ 0xA9#8 ∧ op ≠ 0xA5#8 ↔
      (op.toNat ≤ 0xA4 ∨ (0xA6 ≤ op.toNat ∧ op.toNat ≤ 0xA8) ∨ (0xAA ≤ op.toNat ∧ op.toNat ≤ 0xFF)) := by
  bv_omega

/-- Of the 256 byte values, those that the decoder takes for an unrecognized opcode are left when the two load opcodes are erased. -/
theorem filter_unrecognized_range (operand : Byte) :
    (List.range 256).filter (fun k => decide (decodeBytes (BitVec.ofNat 8 k) operand = .unrecognized (BitVec.ofNat 8 k))) =
      ((List.range 256).erase 0xA5).erase 0xA9 := by
  rw [(List.nodup_range.erase 0xA5).erase_eq_filter, List.nodup_range.erase_eq_filter, List.filter_filter]
  refine List.filter_congr fun k hk => ?_
  have hlt : k < 256 := List.mem_range.mp hk
  have hne : BitVec.ofNat 8 k ≠ 0xA9#8 ∧ BitVec.ofNat 8 k ≠ 0xA5#8 ↔ k ≠ 0xA9 ∧ k ≠ 0xA5 := by bv_omega
  rw [Bool.eq_iff_iff]
  simp [decodeBytes_eq_unrecognized_iff, hne]

/-- Settles O4: the ranges are the bytes other than the two load opcodes, and 256 - 2 of the byte values are left. -/
theorem unrecognizedOpcodesAreThe254OtherValues : Obligations.UnrecognizedOpcodesAreThe254OtherValues := by
  refine ⟨fun op operand => (decodeBytes_eq_unrecognized_iff op operand).trans (ne_load_opcodes_iff_ranges op), ?_⟩
  have hA9 : 0xA9 ∈ (List.range 256).erase 0xA5 := (List.mem_erase_of_ne (by decide)).mpr (List.mem_range.mpr (by decide))
  have hA5 : 0xA5 ∈ List.range 256 := List.mem_range.mpr (by decide)
  rw [filter_unrecognized_range, List.length_erase_of_mem hA9, List.length_erase_of_mem hA5, List.length_range]

end Sys2Proof

namespace Sys2Proof.Machine

/-! ## What a dispatch miss leaves (R90) -/

/-- A dispatch miss that the budget covers ends the call. -/
theorem exec_miss {op : Byte} {s : State} {b : Nat} (hcall : s.call = .running b) (hcost : costOf op ≤ b) :
    exec (.unrecognized op) s = .next (s.afterMiss op b) := by
  rw [exec_admitted (i := .unrecognized op) hcall hcost, State.admitted_miss hcall]

/-- The fields a dispatch miss writes; all the others are those of `s`. -/
theorem State.afterMiss_eq (op : Byte) (b : Nat) (s : State) :
    s.afterMiss op b =
      { s with
        cpu := { s.cpu with pc := s.cpu.pc + 1#16 }
        call := .returned (.unknownOpcode op s.cpu.pc) (b - 1)
        trace := (s.afterMiss op b).trace } := rfl

/-- Settles O21: the opcode of neither load costs 1 cycle, so any positive budget covers the miss. -/
theorem unrecognizedOpcodeEndsTheCall : Obligations.UnrecognizedOpcodeEndsTheCall := by
  intro s b op hcall hpos h₁ h₂
  have hcost : costOf op ≤ b := (costOf_other (wellFormed_unrecognized.mpr ⟨h₁, h₂⟩)).trans_le hpos
  exact ⟨_, (exec_miss hcall hcost).trans (congrArg Host.Outcome.next (State.afterMiss_eq op b s))⟩

end Sys2Proof.Machine

/-! # The family of exceptions: how a call ends, and the trace port that sees it (60_exceptions.md) -/
namespace Sys2Proof.Machine

/-! ## The trace hook (R101) -/

section Untraced
variable (s : State)

/-- The effect of an instruction inside a call does not depend on the record of the events before it. -/
theorem State.admitted_untraced {b : Nat} (hcall : s.call = .running b) (i : Instr) :
    s.untraced.admitted i = (s.admitted i).untraced := by
  have hcall' : s.untraced.call = .running b := hcall
  have hload : loadedByte i s.untraced = loadedByte i s := rfl
  cases hv : loadedByte i s with
  | some v =>
    rw [State.admitted_load hv hcall, State.admitted_load (hload.trans hv) hcall']
    rfl
  | none =>
    obtain ⟨op, rfl⟩ := loadedByte_eq_none hv
    rw [State.admitted_miss hcall, State.admitted_miss hcall']
    rfl

/-- The checks before an instruction look only at the call and at PC. -/
theorem exec_untraced {b : Nat} (hcall : s.call = .running b) (i : Instr) :
    exec i s.untraced = mapNext State.untraced (exec i s) := by
  simp only [exec_eq_beginInstr, beginInstr, State.untraced_call, hcall]
  split
  · rfl
  · split
    · rfl
    · exact congrArg Host.Outcome.next (s.admitted_untraced hcall i)

/-- No command of the host reads the trace record, and whether a call is refused does not depend on it. -/
theorem runCommand_untraced (c : HostCommand) :
    runCommand c s.untraced = mapNext State.untraced (runCommand c s) := by
  cases c with
  | execute budget =>
    cases hreset : s.resetDone <;> simp only [runCommand, startExecute, State.untraced_resetDone, hreset]
    · rfl
    · rfl
  | memoryNew => rfl
  | cpuNew => rfl
  | memoryReset => rfl
  | cpuReset => rfl
  | write addr v => rfl

/-- Between calls the host's next command is the same one with the hook detached. -/
theorem hostAct_untraced : hostAct s.untraced = mapNext State.untraced (hostAct s) := by
  cases hh : s.host with
  | nil => rw [hostAct_nil hh, hostAct_nil (s := s.untraced) hh]; rfl
  | cons c rest =>
    rw [hostAct_cons hh, hostAct_cons (s := s.untraced) hh]
    exact runCommand_untraced { s with host := rest } c

end Untraced

/-- Settles O48: inside a call the instruction at PC, between calls the host's command, is the same one with the hook detached. -/
theorem traceNeverInfluencesTheCore : Obligations.TraceNeverInfluencesTheCore := by
  intro s
  obtain ⟨b, hcall⟩ | hn := call_running_or_between s
  · rw [step_running hcall, step_running (s := s.untraced) hcall]
    exact exec_untraced s hcall s.instrAtPc
  · rw [step_between hn, step_between (s := s.untraced) hn]
    exact hostAct_untraced s

/-! ## The checks in order, and what each leaves (R97, R98) -/

/-- The third check, the dispatch: with a budget that covers it, an opcode of neither load ends the call. -/
theorem step_miss {s : State} {b : Nat} (hcall : s.call = .running b) (hcost : costOf (s.mem.read s.cpu.pc) ≤ b)
    (h₁ : s.mem.read s.cpu.pc ≠ 0xA9#8) (h₂ : s.mem.read s.cpu.pc ≠ 0xA5#8) :
    step s = .next (s.afterMiss (s.mem.read s.cpu.pc) b) := by
  have hi : s.instrAtPc = .unrecognized (s.mem.read s.cpu.pc) :=
    decodeBytes_other (wellFormed_unrecognized.mpr ⟨h₁, h₂⟩) _
  rw [step_admitted hcall hcost, hi, State.admitted_miss hcall]

/-- A load that the budget covers is completed. -/
theorem step_load {s : State} {b : Nat} (hcall : s.call = .running b) (hcost : costOf (s.mem.read s.cpu.pc) ≤ b)
    (hop : s.mem.read s.cpu.pc = 0xA9#8 ∨ s.mem.read s.cpu.pc = 0xA5#8) :
    ∃ v, step s = .next (s.afterLoad v b (costOf (s.mem.read s.cpu.pc))) := by
  obtain ⟨v, hv⟩ : ∃ v, loadedByte s.instrAtPc s = some v := by
    rw [State.instrAtPc]
    obtain h | h := hop
    · rw [h]; exact ⟨_, rfl⟩
    · rw [h]; exact ⟨_, rfl⟩
  refine ⟨v, ?_⟩
  rw [step_admitted hcall hcost, State.admitted_load hv hcall, State.opcode_instrAtPc]

/-- Settles O14: the step is a function, so the check that applies fixes the call of its one next state. -/
theorem eventsAreCheckedInOrder : Obligations.EventsAreCheckedInOrder := by
  intro s b hcall
  obtain ⟨t, hstep, -⟩ := step_running_total hcall
  have next_eq {u : State} (hu : step s = .next u) : t = u := Host.Outcome.next.inj (hstep.symm.trans hu)
  refine ⟨t, hstep, fun hb => ?_, fun hpos hlt => ?_, fun hcost h₁ h₂ => ?_, fun hcost hop => ?_⟩
  · subst hb
    rw [next_eq (step_exhausted hcall)]
  · rw [next_eq (step_insufficient hcall hpos hlt)]
  · rw [next_eq (step_miss hcall hcost h₁ h₂)]
    rfl
  · obtain ⟨v, hv⟩ := step_load hcall hcost hop
    rw [next_eq hv]
    exact ⟨_, rfl⟩

/-- Settles O15: of the ways the instruction at PC can go, three end the call, one for each status. -/
theorem haltChangesNothingElse : Obligations.HaltChangesNothingElse := by
  intro s t b st r hcall hstep ht
  rw [step_running hcall] at hstep
  cases exec_next hstep with
  | outside hn => exact absurd hcall (hn b)
  | exhausted _ => cases ht; rfl
  | insufficient _ _ _ => cases ht; rfl
  | load _ _ _ => cases ht
  | miss _ _ _ => cases ht; exact ⟨rfl, State.afterMiss_eq _ _ _⟩

end Sys2Proof.Machine

/-! # The family of reset: what `cpu.reset` leaves, and what it makes the machine forget (70_reset_and_hazards.md) -/
namespace Sys2Proof.Machine

/-! ## One reset (R106, R107) -/

/-- A reset gives the state of R38; of the state before it only the trace record and the commands still to come are left. -/
theorem step_cpuReset {s : State} {rest : List HostCommand} (hn : ∀ b, s.call ≠ .running b)
    (hh : s.host = .cpuReset :: rest) : step s = .next { State.reset with host := rest, trace := s.trace } :=
  step_command hn hh

/-- Settles O32: the next state is that of R38, whose memory lists no byte. -/
theorem cpuResetSetsEveryRegisterAndClearsMemory : Obligations.CpuResetSetsEveryRegisterAndClearsMemory := by
  intro s rest hn hh
  exact ⟨_, step_cpuReset hn hh, Memory.read_zeroed, rfl, rfl, rfl⟩

/-- Settles O33: the state after a reset names only the trace record and the commands to come, and no call is in progress in it, so a
second reset is taken from it and gives it again. -/
theorem resetIsIdempotentAndForgetsThePast : Obligations.ResetIsIdempotentAndForgetsThePast := by
  refine ⟨fun s s' rest hn hn' hh hh' htrace => ?_, fun s rest hn hh => ?_⟩
  · rw [step_cpuReset hn hh, step_cpuReset hn' hh', htrace]
  · have honce : step { s with host := .cpuReset :: rest } = .next { State.reset with host := rest, trace := s.trace } :=
      step_cpuReset hn rfl
    rw [core_run_succ 1 (step_cpuReset hn hh), honce]
    exact core_run_one (step_cpuReset (fun _ => nofun) rfl)

/-! ## The clearing loop (R106) -/

/-- The clearing loop after its first `n` writes. -/
def Memory.clearBelow (m : Memory) (n : Nat) : Memory :=
  (List.range n).foldl (fun m k => m.write (BitVec.ofNat 16 k) 0x00#8) m

theorem Memory.clearLoop_eq_clearBelow (m : Memory) : m.clearLoop = m.clearBelow Config.memSize := rfl

theorem Memory.clearBelow_succ (m : Memory) (n : Nat) :
    m.clearBelow (n + 1) = (m.clearBelow n).write (BitVec.ofNat 16 n) 0x00#8 := by
  simp only [Memory.clearBelow, List.range_succ, List.foldl_concat]

theorem Memory.wf_clearBelow {m : Memory} (h : m.wf = true) (n : Nat) : (m.clearBelow n).wf = true := by
  induction n with
  | zero => exact h
  | succ n ih =>
    rw [Memory.clearBelow_succ]
    exact Memory.wf_write ih _ _

/-- Every address the loop has passed reads 0: the last write is to the one just passed, and leaves those before it alone. -/
theorem Memory.read_clearBelow {m : Memory} (h : m.wf = true) {n : Nat} {addr : Addr} (haddr : addr.toNat < n) :
    (m.clearBelow n).read addr = 0x00#8 := by
  induction n with
  | zero => exact absurd haddr (Nat.not_lt_zero _)
  | succ n ih =>
    rw [Memory.clearBelow_succ, Memory.read_write (Memory.wf_clearBelow h n)]
    split
    next => rfl
    next hne => exact ih (by bv_omega)

/-- Settles O34: the loop passes every address, and a canonical memory that reads 0 everywhere is the one with nothing listed. -/
theorem clearingLoopGivesTheZeroedMemory : Obligations.ClearingLoopGivesTheZeroedMemory := by
  intro m h
  rw [Memory.clearLoop_eq_clearBelow]
  refine memoriesThatReadAlikeAreEqual _ _ (Memory.wf_clearBelow h _) Memory.wf_zeroed fun addr => ?_
  rw [Memory.read_clearBelow h (Memory.addr_lt addr), Memory.read_zeroed]

/-! ## A program loaded before the reset (R109, R110) -/

/-- Settles O42: the write, the reset and the start of the call, and then the miss at the opcode 0x00 that the reset left at PC. -/
theorem byteWrittenBeforeResetIsLost : Obligations.ByteWrittenBeforeResetIsLost := by
  intro s addr v budget rest hn hh hpos
  have hreset := step_cpuReset
    (s := { s with mem := s.mem.write addr v, host := .cpuReset :: .execute budget :: rest }) hn rfl
  have hcall := step_execute
    (s := { State.reset with host := .execute budget :: rest, trace := s.trace }) (fun _ => nofun) rfl rfl
  have hmiss := step_miss
    (s := { State.reset with host := rest, trace := s.trace, call := .running budget.toNat }) rfl hpos nofun nofun
  rw [core_run_succ 3 (step_write hn hh)]
  exact ⟨_, (core_run_succ 2 hreset).trans ((core_run_succ 1 hcall).trans (core_run_one hmiss)), rfl, rfl, rfl⟩

end Sys2Proof.Machine

/-! # The other statements: memory along a step, a word placed for fetch, the trace hook's events, and the idle core -/
namespace Sys2Proof.Machine

/-! ## Memory along a step (20_memory.md) -/

/-- Settles O44: no instruction writes memory, and every command of the host keeps its form. -/
theorem stepKeepsMemoryCanonical : Obligations.StepKeepsMemoryCanonical :=
  fun _ _ => step_keeps_mem_wf

/-! ## A table word placed where the next step fetches (log 3) -/

/-- The call `withBudgetFor` makes is in progress, with a budget that covers the cost. -/
theorem Call.withBudgetFor_running (cost : Nat) (call : Call) : ∃ b, call.withBudgetFor cost = .running b ∧ cost ≤ b := by
  cases call with
  | idle => exact ⟨cost, rfl, le_rfl⟩
  | returned _ _ => exact ⟨cost, rfl, le_rfl⟩
  | running b =>
    by_cases hlt : b < cost
    · exact ⟨cost, if_pos hlt, le_rfl⟩
    · exact ⟨b, if_neg hlt, Nat.le_of_not_lt hlt⟩

section WithFetchWord
variable {s : State} (hwf : s.mem.wf = true) (nbits w : Nat)
include hwf

/-- The second write of the word, at PC + 1, leaves its opcode byte at PC. -/
theorem State.withFetchWord_read_pc : (s.withFetchWord nbits w).mem.read s.cpu.pc = (tableBytes nbits w).1 := by
  have hne : s.cpu.pc ≠ s.cpu.pc + 1#16 := by bv_omega
  exact (Memory.read_write_other _ _ hne).trans (Memory.read_write_self hwf _ _)

theorem State.withFetchWord_read_next : (s.withFetchWord nbits w).mem.read (s.cpu.pc + 1#16) = (tableBytes nbits w).2 :=
  Memory.read_write_self (Memory.wf_write hwf _ _) _ _

/-- The instruction at PC is the one the decoder reads from the word's two bytes. -/
theorem State.withFetchWord_instrAtPc :
    (s.withFetchWord nbits w).instrAtPc = decodeBytes (tableBytes nbits w).1 (tableBytes nbits w).2 :=
  congrArg₂ decodeBytes (State.withFetchWord_read_pc hwf nbits w) (State.withFetchWord_read_next hwf nbits w)

end WithFetchWord

/-- Settles O9: the word's bytes read back as its instruction, whose opcode is the first of them, and the call covers its cost. -/
theorem wordPlacedForFetchIsRun : Obligations.WordPlacedForFetchIsRun := by
  intro s nbits w i hwf hword
  obtain ⟨b, hcall, hcost⟩ := s.call.withBudgetFor_running (costOf (tableBytes nbits w).1)
  have hcall' : (s.withFetchWord nbits w).call = .running b := hcall
  have hinstr : (s.withFetchWord nbits w).instrAtPc = i := by
    rw [decodeTableWord_eq] at hword
    exact (State.withFetchWord_instrAtPc hwf nbits w).trans (Option.some.inj hword)
  have hopcode : i.opcode = (tableBytes nbits w).1 := by
    rw [← hinstr, State.opcode_instrAtPc]
    exact State.withFetchWord_read_pc hwf nbits w
  refine ⟨?_, b, hcall', ?_⟩
  · rw [step_running hcall', hinstr]
  · rwa [hopcode]

/-! ## The events the trace hook receives (R101; log 7) -/

/-- Settles O49: of the ways the instruction at PC can go, a load and a miss append their one event, and the other two leave the
record as it is. -/
theorem traceHookReceivesOneEventPerInstruction : Obligations.TraceHookReceivesOneEventPerInstruction := by
  intro s t b hcall hstep
  rw [step_running hcall] at hstep
  cases exec_next hstep with
  | outside hn => exact absurd hcall (hn b)
  | exhausted _ => exact ⟨nofun, nofun, nofun, fun _ _ => rfl⟩
  | insufficient _ _ _ => exact ⟨nofun, nofun, fun _ _ _ _ => rfl, nofun⟩
  | load _ _ _ => exact ⟨fun _ _ => ⟨_, rfl⟩, nofun, nofun, nofun⟩
  | miss _ _ _ => exact ⟨nofun, fun _ _ _ _ => ⟨_, _, rfl⟩, nofun, nofun⟩

/-! ## The idle core (R8, R104; log 8, log 10) -/

/-- Settles O22: every meaning starts with the checks of `beginInstr`, which go past the first only in a call. -/
theorem instructionsRunOnlyInsideACall : Obligations.InstructionsRunOnlyInsideACall := by
  intro i s hn
  rw [exec_eq_beginInstr]
  obtain ⟨-, hb⟩ | ⟨hcall, -⟩ | ⟨b, hcall, -⟩ | ⟨b, hcall, -⟩ :=
    beginInstr_cases i.opcode (fun s => .next (s.admitted i)) s
  · exact hb
  · exact absurd hcall (hn 0)
  · exact absurd hcall (hn b)
  · exact absurd hcall (hn b)

/-- Settles O38: between calls the step is the host's, and the host has nothing pending. -/
theorem betweenCallsTheCoreDoesNothing : Obligations.BetweenCallsTheCoreDoesNothing :=
  fun _ hn hh => (step_between hn).trans (hostAct_nil hh)

end Sys2Proof.Machine
